-- ==== Sys2Proof/Config.lean ====
section
/-! DEFINITION. The parameters of the tracker (00_scope.md rule R8): every row of the rule's table is a
field of `Parameters`, with the value this hardware takes as its default (93_implementation_defined.md
U12). A rule names the parameter; no other file writes a parameter's number. The open parameters are
built from free constants. -/

namespace Sys2Proof.Config

/-- An inclusive window `lo..hi` of a random cycle amount (R6, R8). -/
structure Window where
  lo : Nat
  hi : Nat
deriving DecidableEq, Repr

/-- The table of R8, row by row. `DIV_MIN`, `DIV_MAX`, `MISS_MIN`, `MISS_MAX` are OPEN and have no
default. The index functions of the table are fields too (D14, D15, D19). -/
structure Parameters where
  /-- `NREG` (D3). -/
  nreg : Nat := 32
  /-- `ADDR_W` (D4). -/
  addrW : Nat := 32
  /-- `COUNT_W` (D5). -/
  countW : Nat := 32
  /-- `CYCLE_W` (D6). -/
  cycleW : Nat := 64
  /-- `MULT_COST`. -/
  multCost : Nat := 6
  /-- `RESULT_EXTRA`. -/
  resultExtra : Nat := 1
  /-- `DIV_MIN`, `DIV_MAX` (D13). -/
  div : Window
  /-- `CSR_LAT`. -/
  csrLat : Nat := 5
  /-- `FWD_PENALTY`. -/
  fwdPenalty : Nat := 5
  /-- `SUBWORD_EXTRA`. -/
  subwordExtra : Nat := 2
  /-- `WORD_BYTES`. -/
  wordBytes : Nat := 4
  /-- `STORE_EXTRA`. -/
  storeExtra : Nat := 1
  /-- `STORE_SLOTS` (D10): `none` is unbounded, `some k` a finite build of `k` slots (R30). -/
  storeSlots : Option Nat := none
  /-- `MISPREDICT`. -/
  mispredict : Nat := 3
  /-- `BHT_ENTRIES`. -/
  bhtEntries : Nat := 128
  /-- `BHT_CTR_BITS`. -/
  bhtCtrBits : Nat := 2
  /-- `BHT_THRESHOLD`. -/
  bhtThreshold : Nat := 2
  /-- `BHT_HIST_BITS` (D16). -/
  bhtHistBits : Nat := 1
  /-- `BHT_INDEX(pc)` (D14). -/
  bhtIndex : Nat → Nat := fun pc => (pc >>> 2) % bhtEntries
  /-- `BTB_ENTRIES`. -/
  btbEntries : Nat := 40
  /-- `BTB_INDEX(pc)` (D15). -/
  btbIndex : Nat → Nat := fun pc => (pc >>> 2) % btbEntries
  /-- `RAS_CAP`. -/
  rasCap : Nat := 2
  /-- `IC_BUCKETS`. -/
  icBuckets : Nat := 512
  /-- `IC_WAYS`; fixed, since a bucket has exactly two block fields. -/
  icWays : Nat := 2
  /-- `IC_BLOCK_BYTES` (D19). -/
  icBlockBytes : Nat := 16384
  /-- `IC_TAG(pc)` (D19). -/
  icTag : Nat → Nat := fun pc => (pc >>> 5) % icBuckets
  /-- `MISS_MIN`, `MISS_MAX` (D21). -/
  miss : Window

/-! The free constants. Nothing is known of them; `divWindow` and `missWindow` bring them into the
ranges R8 allows, and every legal window is the image of some free constants (log entry 6). -/

opaque freeDivLo : Nat
opaque freeDivHi : Nat
opaque freeMissLo : Nat
opaque freeMissHi : Nat

/-- The draw before the outside gives one (log entry 4). -/
opaque freeDraw : Nat

/-- The level on `imem_data[31:0]` before the outside drives the port (log entry 5). -/
opaque freeWord : BitVec 32

/-- The window with the given free bounds, brought into `1 <= lo <= hi < limit`. -/
def clampWindow (limit a b : Nat) : Window :=
  let lo := a % (limit - 1) + 1
  { lo := lo, hi := b % (limit - lo) + lo }

/-- `DIV_MIN..DIV_MAX`: OPEN, `1 <= DIV_MIN <= DIV_MAX < 2^32 - 1` (R8, D13). -/
def divWindow : Window := clampWindow (2 ^ 32 - 1) freeDivLo freeDivHi

/-- `MISS_MIN..MISS_MAX`: OPEN, `1 <= MISS_MIN <= MISS_MAX < 2^32` (R8, D21). -/
def missWindow : Window := clampWindow (2 ^ 32) freeMissLo freeMissHi

/-- This hardware: every default of R8, and the open windows. -/
abbrev params : Parameters := { div := divWindow, miss := missWindow }

/-! The parameters that the types of the machine are made of (log entry 18). -/

abbrev nreg : Nat := params.nreg
abbrev addrW : Nat := params.addrW
abbrev countW : Nat := params.countW
abbrev bhtEntries : Nat := params.bhtEntries
abbrev bhtCtrBits : Nat := params.bhtCtrBits
abbrev bhtHistBits : Nat := params.bhtHistBits
abbrev btbEntries : Nat := params.btbEntries
abbrev icBuckets : Nat := params.icBuckets

/-- Counters in one BHT entry, `2^BHT_HIST_BITS` (R35). -/
abbrev bhtCounters : Nat := 2 ^ bhtHistBits

/-- The parameters a statement may vary: the open windows (R8: "the model takes it as an argument"), and
`STORE_SLOTS`, for which R30 speaks of finite builds too. -/
structure Build where
  div : Window
  miss : Window
  storeSlots : Option Nat
deriving DecidableEq, Repr

/-- The constraints R8 puts on the open windows: `1 <= DIV_MIN <= DIV_MAX < 2^32 - 1` and
`1 <= MISS_MIN <= MISS_MAX < 2^32`. -/
abbrev Build.legal (b : Build) : Prop :=
  (1 ≤ b.div.lo ∧ b.div.lo ≤ b.div.hi ∧ b.div.hi < 2 ^ 32 - 1) ∧
  (1 ≤ b.miss.lo ∧ b.miss.lo ≤ b.miss.hi ∧ b.miss.hi < 2 ^ 32)

/-- The build of this hardware: both windows open, the store set unbounded (R8, R30). -/
def build : Build := { div := params.div, miss := params.miss, storeSlots := params.storeSlots }

end Sys2Proof.Config
end

