-- ==== Sys2Proof/Word.lean ====
section
/-! DEFINITION. The words of the tracker: addresses, operand fields and the command word
(30_encoding.md rules R80 to R83; 20_memory.md rule R60). -/

namespace Sys2Proof

/-- An address: `ADDR_W` bits (R8, R65). -/
abbrev Addr := BitVec Config.addrW

/-- The end of an address range: `ADDR_W + 1` bits, so that `2^ADDR_W` can be written (R60, R83). -/
abbrev RangeEnd := BitVec (Config.addrW + 1)

/-- A cycle-count operand: `COUNT_W` bits (R8, R82). -/
abbrev Count := BitVec Config.countW

/-- A 32-bit operand value or instruction word (R68, R83). -/
abbrev Word := BitVec 32

/-- A register index: the 5-bit field `reg` (R23, R81). -/
abbrev RegIx := BitVec 5

/-- One command: 160 bits, bit 0 the least significant bit of `W0` (R80). -/
abbrev CmdWord := BitVec 160

end Sys2Proof
end

