-- ==== Sys2Proof/Syntax.lean ====
section
/-! DEFINITION. The commands of the tracker, one constructor per row of the opcode table
(30_encoding.md rule R89; opcode_table.json). A constructor carries the fields the row uses, in the
order of the document's arguments; a field the row does not use is ignored by the command (R92) and
is not carried. -/

namespace Sys2Proof

inductive Instr where
  /-- ADVANCE, `advance(n)` (R111). -/
  | advance (n : Count)
  /-- STALL, `stall(n)` (R112). -/
  | stall (n : Count)
  /-- ACCESS_REG, `access_register(idx)` (R120). -/
  | accessReg (reg : RegIx)
  /-- ADD_LAT, `add_result_latency(idx, cycles)` (R121). -/
  | addLat (reg : RegIx) (cycles : Count)
  /-- RESERVE_MULT, `reserve_mult(n)` (R131). -/
  | reserveMult (n : Count)
  /-- RESERVE_DIV, `reserve_div(n)` (R132). -/
  | reserveDiv (n : Count)
  /-- DO_MULT, `do_mult(dest_reg, a, b)` (R133). -/
  | doMult (reg : RegIx) (a b : Word)
  /-- DO_DIV, `do_div(dest_reg, a, b)` (R134). -/
  | doDiv (reg : RegIx) (a b : Word)
  /-- DO_CSR, `do_csr(dest_reg)` (R135). -/
  | doCsr (reg : RegIx)
  /-- RESERVE_STORE, `reserve_store([start, stop), n)` (R150). -/
  | reserveStore (start : Addr) (stop : RangeEnd) (n : Count)
  /-- HAS_STORE, `has_store_reservation([start, stop))` (R151). -/
  | hasStore (start : Addr) (stop : RangeEnd)
  /-- DO_LOAD, `do_load([start, stop), dest_reg, base_latency)` (R152). -/
  | doLoad (start : Addr) (stop : RangeEnd) (reg : RegIx) (baseLatency : Count)
  /-- UPDATE_BP, `update_branch_prediction(branch_pc, new_pc, taken)` (R168). -/
  | updateBp (branchPc newPc : Addr) (taken : Bool)
  /-- DO_JUMP, `do_jump(origin_pc, target_pc, fall_through_address)` (R169). -/
  | doJump (originPc targetPc fallThrough : Addr)
  /-- DO_CALL, `do_call(origin_pc, target_pc, fall_through_address)` (R170). -/
  | doCall (originPc targetPc fallThrough : Addr)
  /-- DO_RET, `do_ret(origin_pc, target_pc, fall_through_address)` (R171). -/
  | doRet (originPc targetPc fallThrough : Addr)
  /-- RAS_PUSH, `ras_push(a)` (R172). -/
  | rasPush (a : Addr)
  /-- RAS_POP, `ras_pop()` (R173). -/
  | rasPop
  /-- FETCH, `fetch(pc)` (R201). -/
  | fetch (pc : Addr)
  /-- RD_CYCLES (R113). -/
  | rdCycles
deriving DecidableEq, Repr

end Sys2Proof
end

