-- ==== Sys2Proof/WellFormed.lean ====
section
/-! DEFINITION. Well-formedness. `CmdWord.legal` says which 160-bit words are commands (30_encoding.md
rules R90, R91). `Instr.wf` is the part of a command's own contract that its operands alone decide:
the counts that must be positive and the range invariant (60_exceptions.md rule R221, causes 2 and 3;
20_memory.md rule R64). An instruction that is not `wf` still decodes and runs: it faults. -/

namespace Sys2Proof

/-- R64: `start <= end and end <= 2^ADDR_W`. -/
def rangeWf (start : Addr) (stop : RangeEnd) : Bool :=
  decide (start.toNat ≤ stop.toNat ∧ stop.toNat ≤ 2 ^ Config.addrW)

/-- R221: a count that must be positive is. -/
def countWf (n : Count) : Bool := n != 0

/-- The operand contract of each command. -/
def Instr.wf : Instr → Bool
  | .advance n => countWf n
  | .stall n => countWf n
  | .accessReg _ => true
  | .addLat _ cycles => countWf cycles
  | .reserveMult n => countWf n
  | .reserveDiv n => countWf n
  | .doMult _ _ _ => true
  | .doDiv _ _ _ => true
  | .doCsr _ => true
  | .reserveStore start stop _ => rangeWf start stop
  | .hasStore start stop => rangeWf start stop
  | .doLoad start stop _ baseLatency => rangeWf start stop && countWf baseLatency
  | .updateBp _ _ _ => true
  | .doJump _ _ _ => true
  | .doCall _ _ _ => true
  | .doRet _ _ _ => true
  | .rasPush _ => true
  | .rasPop => true
  | .fetch _ => true
  | .rdCycles => true

/-- R90, R91: the reserved bits `W0[15:13]` and `W0[31:18]` are zero, and the opcode is one of
`0x01..0x14`. -/
def CmdWord.legal (w : CmdWord) : Bool :=
  decide (w.extractLsb' 13 3 = 0 ∧ w.extractLsb' 18 14 = 0 ∧
    1 ≤ (w.extractLsb' 0 8).toNat ∧ (w.extractLsb' 0 8).toNat ≤ 0x14)

end Sys2Proof
end

