-- ==== Sys2Proof/Decode.lean ====
section
/-! DEFINITION. Decoding, total on every 160-bit word, and the encoder written from the same tables
(30_encoding.md rules R80 to R83, R89 to R92, R94, R96). -/

namespace Sys2Proof

/-- The fields of a command word (R81 to R83), the reserved bits among them. -/
structure CmdFields where
  op : BitVec 8
  reg : RegIx
  reservedLo : BitVec 3
  flag : BitVec 1
  bhi : BitVec 1
  reservedHi : BitVec 14
  n : BitVec 32
  a : Word
  b : Word
  c : Word
deriving DecidableEq, Repr

/-- Why a word is no command (R91). -/
inductive DecodeError where
  /-- One of `W0[15:13]`, `W0[31:18]` is set. -/
  | reservedBitSet
  /-- The opcode is `0x00` or in `0x15..0xFF`. -/
  | undefinedOpcode (op : BitVec 8)
deriving DecidableEq, Repr

/-- The fields of a word, by their bit positions (R80 to R83). -/
def fieldsOf (w : CmdWord) : CmdFields :=
  { op := w.extractLsb' 0 8
    reg := w.extractLsb' 8 5
    reservedLo := w.extractLsb' 13 3
    flag := w.extractLsb' 16 1
    bhi := w.extractLsb' 17 1
    reservedHi := w.extractLsb' 18 14
    n := w.extractLsb' 32 32
    a := w.extractLsb' 64 32
    b := w.extractLsb' 96 32
    c := w.extractLsb' 128 32 }

/-- The word with the given fields (R80 to R83), most significant first. -/
def wordOf (f : CmdFields) : CmdWord :=
  f.c ++ (f.b ++ (f.a ++ (f.n ++
    (f.reservedHi ++ (f.bhi ++ (f.flag ++ (f.reservedLo ++ (f.reg ++ f.op))))))))

/-- R83: the range end `(bhi, B)`, a 33-bit number. -/
def rangeEnd (f : CmdFields) : RangeEnd := f.bhi ++ f.b

/-- R81: `flag` = 1 means taken. -/
def takenFlag (f : CmdFields) : Bool := f.flag == 1#1

/-- The opcode map (R89), with the fields each row uses; R90: the reserved bits must be zero. -/
def decodeFields (f : CmdFields) : Except DecodeError Instr :=
  if f.reservedLo ≠ 0#3 ∨ f.reservedHi ≠ 0#14 then .error .reservedBitSet
  else
    match f.op.toNat with
    | 0x01 => .ok (.advance f.n)
    | 0x02 => .ok (.stall f.n)
    | 0x03 => .ok (.accessReg f.reg)
    | 0x04 => .ok (.addLat f.reg f.n)
    | 0x05 => .ok (.reserveMult f.n)
    | 0x06 => .ok (.reserveDiv f.n)
    | 0x07 => .ok (.doMult f.reg f.a f.b)
    | 0x08 => .ok (.doDiv f.reg f.a f.b)
    | 0x09 => .ok (.doCsr f.reg)
    | 0x0A => .ok (.reserveStore f.a (rangeEnd f) f.n)
    | 0x0B => .ok (.hasStore f.a (rangeEnd f))
    | 0x0C => .ok (.doLoad f.a (rangeEnd f) f.reg f.n)
    | 0x0D => .ok (.updateBp f.a f.b (takenFlag f))
    | 0x0E => .ok (.doJump f.a f.b f.c)
    | 0x0F => .ok (.doCall f.a f.b f.c)
    | 0x10 => .ok (.doRet f.a f.b f.c)
    | 0x11 => .ok (.rasPush f.a)
    | 0x12 => .ok .rasPop
    | 0x13 => .ok (.fetch f.a)
    | 0x14 => .ok .rdCycles
    | _ => .error (.undefinedOpcode f.op)

/-- Decoding (R96, steps 2 and 3). -/
def decode (w : CmdWord) : Except DecodeError Instr := decodeFields (fieldsOf w)

/-- The opcode of a command (R89). -/
def opcodeOf : Instr → BitVec 8
  | .advance _ => 0x01
  | .stall _ => 0x02
  | .accessReg _ => 0x03
  | .addLat _ _ => 0x04
  | .reserveMult _ => 0x05
  | .reserveDiv _ => 0x06
  | .doMult _ _ _ => 0x07
  | .doDiv _ _ _ => 0x08
  | .doCsr _ => 0x09
  | .reserveStore _ _ _ => 0x0A
  | .hasStore _ _ => 0x0B
  | .doLoad _ _ _ _ => 0x0C
  | .updateBp _ _ _ => 0x0D
  | .doJump _ _ _ => 0x0E
  | .doCall _ _ _ => 0x0F
  | .doRet _ _ _ => 0x10
  | .rasPush _ => 0x11
  | .rasPop => 0x12
  | .fetch _ => 0x13
  | .rdCycles => 0x14

/-- The word with the given opcode and every other bit zero. -/
def plainFields (op : BitVec 8) : CmdFields :=
  { op := op, reg := 0, reservedLo := 0, flag := 0, bhi := 0, reservedHi := 0, n := 0, a := 0, b := 0, c := 0 }

/-- The fields of a command: 0 in every field the command ignores, as the assembler writes it (R92). -/
def encodeFields (i : Instr) : CmdFields :=
  let f := plainFields (opcodeOf i)
  match i with
  | .advance n => { f with n := n }
  | .stall n => { f with n := n }
  | .accessReg reg => { f with reg := reg }
  | .addLat reg cycles => { f with reg := reg, n := cycles }
  | .reserveMult n => { f with n := n }
  | .reserveDiv n => { f with n := n }
  | .doMult reg a b => { f with reg := reg, a := a, b := b }
  | .doDiv reg a b => { f with reg := reg, a := a, b := b }
  | .doCsr reg => { f with reg := reg }
  | .reserveStore start stop n =>
    { f with a := start, b := stop.extractLsb' 0 32, bhi := stop.extractLsb' 32 1, n := n }
  | .hasStore start stop =>
    { f with a := start, b := stop.extractLsb' 0 32, bhi := stop.extractLsb' 32 1 }
  | .doLoad start stop reg baseLatency =>
    { f with a := start, b := stop.extractLsb' 0 32, bhi := stop.extractLsb' 32 1, reg := reg, n := baseLatency }
  | .updateBp branchPc newPc taken => { f with a := branchPc, b := newPc, flag := BitVec.ofBool taken }
  | .doJump originPc targetPc fallThrough => { f with a := originPc, b := targetPc, c := fallThrough }
  | .doCall originPc targetPc fallThrough => { f with a := originPc, b := targetPc, c := fallThrough }
  | .doRet originPc targetPc fallThrough => { f with a := originPc, b := targetPc, c := fallThrough }
  | .rasPush a => { f with a := a }
  | .rasPop => f
  | .fetch pc => { f with a := pc }
  | .rdCycles => f

/-- The word of a command (R80 to R83, R89). -/
def encode (i : Instr) : CmdWord := wordOf (encodeFields i)

/-! The text form of a command (R94), with its numbers in decimal. There are no pseudo-commands (R95). -/

/-- A register index, `r<k>`. -/
def regText (reg : RegIx) : String := "r" ++ Nat.repr reg.toNat

/-- A range, its stop exclusive. -/
def rangeText (start : Addr) (stop : RangeEnd) : String :=
  "[" ++ Nat.repr start.toNat ++ ", " ++ Nat.repr stop.toNat ++ ")"

/-- Three addresses, as the jumps, calls and returns take them. -/
def transferText (origin target fall : Addr) : String :=
  Nat.repr origin.toNat ++ ", " ++ Nat.repr target.toNat ++ ", " ++ Nat.repr fall.toNat

/-- R94. -/
def commandText : Instr → String
  | .advance n => "advance " ++ Nat.repr n.toNat
  | .stall n => "stall " ++ Nat.repr n.toNat
  | .accessReg reg => "access_register " ++ regText reg
  | .addLat reg cycles => "add_result_latency " ++ regText reg ++ ", " ++ Nat.repr cycles.toNat
  | .reserveMult n => "reserve_mult " ++ Nat.repr n.toNat
  | .reserveDiv n => "reserve_div " ++ Nat.repr n.toNat
  | .doMult reg a b => "do_mult " ++ regText reg ++ ", " ++ Nat.repr a.toNat ++ ", " ++ Nat.repr b.toNat
  | .doDiv reg a b => "do_div " ++ regText reg ++ ", " ++ Nat.repr a.toNat ++ ", " ++ Nat.repr b.toNat
  | .doCsr reg => "do_csr " ++ regText reg
  | .reserveStore start stop n => "reserve_store " ++ rangeText start stop ++ ", " ++ Nat.repr n.toNat
  | .hasStore start stop => "has_store_reservation " ++ rangeText start stop
  | .doLoad start stop reg baseLatency =>
    "do_load " ++ rangeText start stop ++ ", " ++ regText reg ++ ", " ++ Nat.repr baseLatency.toNat
  | .updateBp branchPc newPc taken =>
    "update_branch_prediction " ++ Nat.repr branchPc.toNat ++ ", " ++ Nat.repr newPc.toNat ++
      (if taken then ", taken" else ", not_taken")
  | .doJump originPc targetPc fallThrough => "do_jump " ++ transferText originPc targetPc fallThrough
  | .doCall originPc targetPc fallThrough => "do_call " ++ transferText originPc targetPc fallThrough
  | .doRet originPc targetPc fallThrough => "do_ret " ++ transferText originPc targetPc fallThrough
  | .rasPush a => "ras_push " ++ Nat.repr a.toNat
  | .rasPop => "ras_pop"
  | .fetch pc => "fetch " ++ Nat.repr pc.toNat
  | .rdCycles => "rd_cycles"

/-- The word whose low `nbits` bits are `w` and whose other bits are zero. -/
def tableWord (nbits w : Nat) : CmdWord := BitVec.ofNat 160 (w % 2 ^ nbits)

/-- What the decoder reads from a table row's bits: the command word is presented whole on `cmd[159:0]`,
bit 0 the least significant bit of `W0` (R80). -/
def decodeTableWord (nbits w : Nat) : Option Instr :=
  match decode (tableWord nbits w) with
  | .ok i => some i
  | .error _ => none

end Sys2Proof
end

