-- ==== Sys2Proof/Machine/Params.lean ====
section
/-! DEFINITION. The parameters of 00_scope.md rule R8 that the rules use as numbers, under the names
the rules use (70_reset_and_hazards.md rule R270 gathers the cycle amounts). Their values stand in
Config.lean. -/

namespace Sys2Proof.Machine

/-- `MULT_COST` (R8): cycles the multiply unit is busy. -/
def multCost : Nat := Config.params.multCost

/-- `RESULT_EXTRA` (R8): result latency minus unit busy time. -/
def resultExtra : Nat := Config.params.resultExtra

/-- `CSR_LAT` (R8): result latency of a CSR access. -/
def csrLat : Nat := Config.params.csrLat

/-- `FWD_PENALTY` (R8): stall of a load that overlaps a live store. -/
def fwdPenalty : Nat := Config.params.fwdPenalty

/-- `SUBWORD_EXTRA` (R8): added when the load is narrower than a word. -/
def subwordExtra : Nat := Config.params.subwordExtra

/-- `WORD_BYTES` (R8). -/
def wordBytes : Nat := Config.params.wordBytes

/-- `STORE_EXTRA` (R8): added to the operand of RESERVE_STORE. -/
def storeExtra : Nat := Config.params.storeExtra

/-- `MISPREDICT` (R8): stall of a misprediction. -/
def mispredict : Nat := Config.params.mispredict

/-- `BHT_THRESHOLD` (R8): a counter at or above it predicts taken. -/
def bhtThreshold : Nat := Config.params.bhtThreshold

/-- `RAS_CAP` (R8). -/
def rasCap : Nat := Config.params.rasCap

/-- `2^CYCLE_W` (R8, R33): the first value `total_cycles` cannot hold. -/
def cycleLimit : Nat := 2 ^ Config.params.cycleW

end Sys2Proof.Machine
end

