-- ==== Sys2Proof/Machine/State.lean ====
section
/-! DEFINITION. The state of the tracker (10_state.md rule R20) and, beside it, the ports and the build
parameters, which the spec calls inputs of the step and not state (R20; log entries 1, 6, 13). -/

namespace Sys2Proof.Machine

/-- No step of this machine stops: a contract violation of the spec is a next state with `fault` set
(60_exceptions.md rules R224, R225), so there is no reason to list (log entry 14: safe). -/
inductive Fault where
deriving DecidableEq, Repr

/-- Why an instruction has no meaning. -/
inductive Refusal where
  /-- Raised by an arm of `exec` for a command without a meaning; safe. No arm of this model raises it. -/
  | notModelled (mnemonic : String)
deriving DecidableEq, Repr

/-- The contract violations (60_exceptions.md rule R221). -/
inductive Cause where
  | illegalCmd
  | badCount
  | badRange
  | dupRegLatency
  | unitDoubleAcquire
  | unitInactiveDecrement
  | rasPopEmpty
  | storeSetFull
  | cycleOverflow
deriving DecidableEq, Repr

/-- An Operation Reservation (R25): `acquired` means busy for another `remaining` cycles. -/
structure OpReservation where
  acquired : Bool
  remaining : Nat
deriving DecidableEq, Repr

/-- The two units that can be reserved (R25). -/
inductive FuncUnit where
  | mult
  | div
deriving DecidableEq, Repr

/-- An Address Range, `stop` exclusive (20_memory.md rule R60). -/
structure AddrRange where
  start : Addr
  stop : RangeEnd
deriving DecidableEq, Repr

/-- A Store Reservation (R29). -/
structure StoreReservation where
  range : AddrRange
  remaining : Nat
deriving DecidableEq, Repr

/-- A BHT Entry (R35): `counters` holds one saturating counter of `BHT_CTR_BITS` bits per value of `history`. -/
structure BhtEntry where
  history : BitVec Config.bhtHistBits
  counters : Vector (BitVec Config.bhtCtrBits) Config.bhtCounters
deriving DecidableEq, Repr

/-- A Cache Line Entry (R42, R43): `lruFlag = false` is flag 0, the first block is the next victim;
`true` is flag 1, the second is. -/
structure CacheBucket where
  firstBlock : Addr
  secondBlock : Addr
  lruFlag : Bool
deriving DecidableEq, Repr

/-- The whole state of the tracker (R20). `reglat` holds 0 for an absent entry (R21); `ras` is written
oldest first (R39). -/
structure Tracker where
  reglat : Vector Nat Config.nreg
  mult : OpReservation
  div : OpReservation
  stores : List StoreReservation
  totalCycles : Nat
  bht : Vector BhtEntry Config.bhtEntries
  btb : Vector Addr Config.btbEntries
  ras : List Addr
  ic : Vector CacheBucket Config.icBuckets
  fault : Bool
  cause : BitVec 4
deriving DecidableEq, Repr

/-- `resp_status` (30_encoding.md rule R87): 0 or 1. -/
inductive RespStatus where
  | ok
  | fault
deriving DecidableEq, Repr

/-- A response (R84, R87). -/
structure Response where
  status : RespStatus
  cause : BitVec 4
  data : BitVec 64
  charged : BitVec 32
deriving DecidableEq, Repr

/-- What the outside drives next (R84, R85, R250): a command word, with the value `d` a draw gives it
(R6, R88) and the level of `imem_data[31:0]` during that command, or a reset. -/
inductive PortEvent where
  | command (word : CmdWord) (draw : Nat) (imemData : Word)
  | rst
deriving DecidableEq, Repr

/-- The ports (R84). `draw`: the value `d` that a draw gives the command (R6, R88; log entry 4).
`imemData`: the level of `imem_data[31:0]`. `resp`: the response, while
`resp_valid` is 1. `imemReq`: the address the last command sent to the instruction memory, if it did.
`drawSampled`: whether the last command consumed a draw. `pending`: what the outside drives next. -/
structure Ports where
  draw : Nat
  imemData : Word
  resp : Option Response
  imemReq : Option Addr
  drawSampled : Bool
  pending : List PortEvent
deriving DecidableEq, Repr

/-- The machine: the tracker, its ports, and the parameters of its build. -/
structure State where
  tracker : Tracker
  ports : Ports
  build : Config.Build
deriving DecidableEq, Repr

/-- R28: a released unit. -/
def OpReservation.released : OpReservation := { acquired := false, remaining := 0 }

/-- R36: strongly not taken. -/
def BhtEntry.reset : BhtEntry := { history := 0, counters := Vector.replicate Config.bhtCounters 0 }

/-- R44: both ways empty, the first filled first. -/
def CacheBucket.reset : CacheBucket := { firstBlock := 0, secondBlock := 0, lruFlag := false }

/-- The reset value of every component (70_reset_and_hazards.md rule R251). -/
def Tracker.reset : Tracker :=
  { reglat := Vector.replicate Config.nreg 0
    mult := OpReservation.released
    div := OpReservation.released
    stores := []
    totalCycles := 0
    bht := Vector.replicate Config.bhtEntries BhtEntry.reset
    btb := Vector.replicate Config.btbEntries 0
    ras := []
    ic := Vector.replicate Config.icBuckets CacheBucket.reset
    fault := false
    cause := 0 }

/-- The ports before the outside drives anything: no command waits, no response stands, the inputs
are free values (log entries 1, 4, 5, 13). -/
def Ports.quiet : Ports :=
  { draw := Config.freeDraw
    imemData := Config.freeWord
    resp := none
    imemReq := none
    drawSampled := false
    pending := [] }

/-- The machine right after reset (R251, R252). -/
def State.reset : State :=
  { tracker := Tracker.reset, ports := Ports.quiet, build := Config.build }

end Sys2Proof.Machine
end

