-- ==== Sys2Proof/Machine/Flags.lean ====
section
/-! DEFINITION. The tracker has no flags (10_state.md rule R41). What stands here is its status: the
cause codes (60_exceptions.md rule R221), the responses (30_encoding.md rule R87), and the saturating
counters of the branch history table (10_state.md rule R35). -/

namespace Sys2Proof.Machine

/-- The codes of R221. -/
def causeCode : Cause → BitVec 4
  | .illegalCmd => 1
  | .badCount => 2
  | .badRange => 3
  | .dupRegLatency => 4
  | .unitDoubleAcquire => 5
  | .unitInactiveDecrement => 6
  | .rasPopEmpty => 7
  | .storeSetFull => 8
  | .cycleOverflow => 9

/-- R87, OK: `charged` is `total_cycles` after the command minus before it. -/
def okResponse (before after : Nat) (data : BitVec 64) : Response :=
  { status := .ok, cause := 0, data := data, charged := BitVec.ofNat 32 (after - before) }

/-- R87, FAULT: data and charged are 0. -/
def faultResponse (cause : BitVec 4) : Response :=
  { status := .fault, cause := cause, data := 0, charged := 0 }

/-- R87: a one-bit answer in bit 0 of the data. -/
def bitData (b : Bool) : BitVec 64 := (BitVec.ofBool b).setWidth 64

/-- R87: an address in bits `[31:0]` of the data. -/
def addrData (a : Addr) : BitVec 64 := a.setWidth 64

/-- R87: FETCH puts the word in bits `[31:0]` and the hit indication in bit 32. -/
def fetchData (hit : Bool) (word : Word) : BitVec 64 := (BitVec.ofBool hit ++ word).setWidth 64

/-- R35: an increment at the greatest value (3) leaves it, a decrement at 0 leaves 0. -/
def saturate (taken : Bool) (c : BitVec Config.bhtCtrBits) : BitVec Config.bhtCtrBits :=
  if taken then (if c = BitVec.allOnes _ then c else c + 1) else (if c = 0 then 0 else c - 1)

/-- R166: the new bit enters at bit 0 and the history keeps its width. -/
def shiftHistory (h : BitVec Config.bhtHistBits) (taken : Bool) : BitVec Config.bhtHistBits :=
  BitVec.ofNat _ ((h.toNat <<< 1) ||| taken.toNat)

end Sys2Proof.Machine
end

