-- ==== Sys2Proof/Machine/Operands.lean ====
section
/-! DEFINITION. Operand forms: address ranges (20_memory.md rules R60 to R64), the index functions of a
pc (00_scope.md rule R8; 45_icache.md rule R200) and the random draw (30_encoding.md rule R88). -/

namespace Sys2Proof.Machine

/-- R61: the number of bytes in the range. -/
def rangeSize (r : AddrRange) : Nat := r.stop.toNat - r.start.toNat

/-- R62: the byte address lies in the range. No command uses it. -/
def rangeContains (r : AddrRange) (a : Nat) : Bool :=
  decide (r.start.toNat ≤ a ∧ a < r.stop.toNat)

/-- R63: the ranges share a byte. -/
def rangesOverlap (r q : AddrRange) : Bool :=
  decide (max r.start.toNat q.start.toNat < min r.stop.toNat q.stop.toNat)

/-- R64: the check every command that carries a range makes first. -/
def rangeOk (r : AddrRange) : Bool :=
  decide (r.start.toNat ≤ r.stop.toNat ∧ r.stop.toNat ≤ 2 ^ Config.addrW)

/-- `BHT_INDEX(pc)` (R8, D14). -/
def bhtIndex (pc : Addr) : Fin Config.bhtEntries :=
  ⟨Config.params.bhtIndex pc.toNat, Nat.mod_lt _ (by decide)⟩

/-- `BTB_INDEX(pc)` (R8, D15). -/
def btbIndex (pc : Addr) : Fin Config.btbEntries :=
  ⟨Config.params.btbIndex pc.toNat, Nat.mod_lt _ (by decide)⟩

/-- `IC_TAG(pc)` (R8, R200, D19). -/
def icTag (pc : Addr) : Fin Config.icBuckets :=
  ⟨Config.params.icTag pc.toNat, Nat.mod_lt _ (by decide)⟩

/-- `IC_BLOCK(pc) = pc and not (IC_BLOCK_BYTES - 1)` (R8, R200, D19). -/
def icBlock (pc : Addr) : Addr := pc &&& ~~~BitVec.ofNat Config.addrW (Config.params.icBlockBytes - 1)

/-- R6, R88: a command takes the draw `d` itself. A `d` outside the command's window is no input the spec
admits, and is read as the nearest end of the window (log entry 4). -/
def drawFrom (w : Config.Window) (d : Nat) : Nat := min (d - w.lo) (w.hi - w.lo) + w.lo

/-- R88: the draw that the hardware's port makes of the level on `draw[31:0]`. No command uses it: a
command's meaning must not depend on this formula, and takes any `d` of the window. -/
def portDraw (w : Config.Window) (level : BitVec 32) : Nat := w.lo + level.toNat % (w.hi - w.lo + 1)

end Sys2Proof.Machine
end

