-- ==== Sys2Proof/Machine/Ops.lean ====
section
/-! DEFINITION. The named operations the commands are built from: access to the tables, `advance` and
`stall` (40_time.md rules R110, R114), the unit reservations (10_state.md rule R27, 42_units.md rule
R130), the latency table (41_register_latency.md rule R121), and the frame of a command: running it,
taking a fault (60_exceptions.md rules R223 to R225), reset (70_reset_and_hazards.md rule R250). -/

namespace Sys2Proof.Machine

/-! Access to the tables. -/

/-- `reglat[idx]`, 0 when absent (R21). -/
def latency (t : Tracker) (idx : RegIx) : Nat := t.reglat[idx.toNat]'(idx.isLt)

/-- `reglat[idx] <- cycles`. -/
def setLatency (t : Tracker) (idx : RegIx) (cycles : Nat) : Tracker :=
  { t with reglat := t.reglat.set idx.toNat cycles idx.isLt }

/-- The unit's reservation (R25). -/
def unitOf (t : Tracker) : FuncUnit → OpReservation
  | .mult => t.mult
  | .div => t.div

/-- `u <- r`. -/
def setUnit (t : Tracker) (u : FuncUnit) (r : OpReservation) : Tracker :=
  match u with
  | .mult => { t with mult := r }
  | .div => { t with div := r }

/-- `bht[BHT_INDEX(pc)]` (R35). -/
def bhtAt (t : Tracker) (pc : Addr) : BhtEntry := t.bht[(bhtIndex pc).val]'(bhtIndex pc).isLt

/-- `bht[BHT_INDEX(pc)] <- e`. -/
def setBht (t : Tracker) (pc : Addr) (e : BhtEntry) : Tracker :=
  { t with bht := t.bht.set (bhtIndex pc).val e (bhtIndex pc).isLt }

/-- `btb[BTB_INDEX(pc)]` (R37, R167). -/
def btbAt (t : Tracker) (pc : Addr) : Addr := t.btb[(btbIndex pc).val]'(btbIndex pc).isLt

/-- `btb[BTB_INDEX(pc)] <- a`. -/
def setBtb (t : Tracker) (pc : Addr) (a : Addr) : Tracker :=
  { t with btb := t.btb.set (btbIndex pc).val a (btbIndex pc).isLt }

/-- `ic[IC_TAG(pc)]` (R42). -/
def icAt (t : Tracker) (pc : Addr) : CacheBucket := t.ic[(icTag pc).val]'(icTag pc).isLt

/-- `ic[IC_TAG(pc)] <- e`. -/
def setIc (t : Tracker) (pc : Addr) (e : CacheBucket) : Tracker :=
  { t with ic := t.ic.set (icTag pc).val e (icTag pc).isLt }

/-! Time. -/

/-- Every entry of the latency table aged by `n`; one that reaches zero or below is absent (R110). -/
def ageLatencies (n : Nat) (v : Vector Nat Config.nreg) : Vector Nat Config.nreg :=
  ⟨(v.toList.map (· - n)).toArray, by simp⟩

/-- R27, `age(u, n)`: decrementing an inactive reservation is a violation. -/
def age (u : OpReservation) (n : Nat) : Except Cause OpReservation :=
  if u.acquired then
    .ok (if u.remaining - n = 0 then .released else { u with remaining := u.remaining - n })
  else .error .unitInactiveDecrement

/-- R110 note (c): a reservation that is not acquired is not touched. -/
def ageIfAcquired (u : OpReservation) (n : Nat) : Except Cause OpReservation :=
  if u.acquired then age u n else .ok u

/-- Every store reservation aged by `n`, those with `remaining <= n` removed (R110). -/
def ageStores (n : Nat) (l : List StoreReservation) : List StoreReservation :=
  (l.filter fun s => decide (n < s.remaining)).map fun s => { s with remaining := s.remaining - n }

/-- R110, `advance(n)`: the only place simulated time moves. -/
def advance (n : Nat) (t : Tracker) : Except Cause Tracker :=
  if n = 0 then .error .badCount
  else if cycleLimit ≤ t.totalCycles + n then .error .cycleOverflow
  else
    (ageIfAcquired t.mult n).bind fun mult =>
    (ageIfAcquired t.div n).bind fun div =>
    .ok { t with
      reglat := ageLatencies n t.reglat
      mult := mult
      div := div
      stores := ageStores n t.stores
      totalCycles := t.totalCycles + n }

/-- R114: `stall(n)` is `advance(n)`. -/
def stall (n : Nat) (t : Tracker) : Except Cause Tracker := advance n t

/-! Latencies and units. -/

/-- R120, `access_register(idx)`. -/
def accessRegister (idx : RegIx) (t : Tracker) : Except Cause Tracker :=
  if latency t idx = 0 then .ok t else stall (latency t idx) t

/-- R121, `add_result_latency(idx, cycles)`. -/
def addResultLatency (idx : RegIx) (cycles : Nat) (t : Tracker) : Except Cause Tracker :=
  if cycles = 0 then .error .badCount
  else if latency t idx = 0 then .ok (setLatency t idx cycles)
  else .error .dupRegLatency

/-- R27, `acquire(u, n)`. -/
def acquire (u : OpReservation) (n : Nat) : Except Cause OpReservation :=
  if u.acquired then .error .unitDoubleAcquire else .ok { acquired := true, remaining := n }

/-- R130, `reserve(u, n)`. -/
def reserve (u : FuncUnit) (n : Nat) (t : Tracker) : Except Cause Tracker :=
  if n = 0 then .error .badCount
  else
    (if (unitOf t u).acquired then stall (unitOf t u).remaining t else .ok t).bind fun t1 =>
    (acquire (unitOf t1 u) n).bind fun r =>
    .ok (setUnit t1 u r)

/-! The frame of a command. -/

/-- Taking a fault (R224): `fault` and `cause` are written and nothing else of the tracker. -/
def enterFault (c : Cause) (t : Tracker) : Tracker := { t with fault := true, cause := causeCode c }

/-- What the ports show after a command. -/
def respond (s : State) (resp : Response) (imemReq : Option Addr) (drawSampled : Bool) : Ports :=
  { s.ports with resp := some resp, imemReq := imemReq, drawSampled := drawSampled }

/-- The command is done (R87, OK): `t` is the tracker it leaves. -/
def complete (s : State) (t : Tracker) (data : BitVec 64) (imemReq : Option Addr) (drawSampled : Bool) : State :=
  { s with
    tracker := t
    ports := respond s (okResponse s.tracker.totalCycles t.totalCycles data) imemReq drawSampled }

/-- The command raised `c` (R224): every assignment it had made is discarded, a draw it had consumed
stays consumed. -/
def takeFault (s : State) (c : Cause) (drawSampled : Bool) : State :=
  { s with
    tracker := enterFault c s.tracker
    ports := respond s (faultResponse (causeCode c)) none drawSampled }

/-- A command while `fault` is set (R225): no effect, no draw, no IMem call, the first cause again. -/
def answerFaulted (s : State) : State :=
  { s with ports := respond s (faultResponse s.tracker.cause) none false }

/-- Running one command: R225 first; else the first violation its pseudocode reaches (R223, R224), or
its completion. `drawSampled` and `imemReq` say what the command did at those two ports. -/
def runCommand (s : State) (imemReq : Option Addr) (drawSampled : Bool)
    (body : Except Cause (Tracker × BitVec 64)) : Host.Outcome State Fault Refusal :=
  if s.tracker.fault then .next (answerFaulted s)
  else
    match body with
    | .error c => .next (takeFault s c drawSampled)
    | .ok (t, data) => .next (complete s t data imemReq drawSampled)

/-- A command that touches neither port and answers no data. -/
def runQuiet (s : State) (body : Except Cause Tracker) : Host.Outcome State Fault Refusal :=
  runCommand s none false (body.map fun t => (t, 0))

/-- An illegal word (R91, R96). -/
def illegalCommand (s : State) : Host.Outcome State Fault Refusal :=
  runCommand s none false (.error .illegalCmd)

/-- The only way out of a fault (R226, R250, R252): every component takes its reset value; the command
in progress has no response; build, instruction memory and random source are untouched. -/
def takeReset (s : State) : State :=
  { s with
    tracker := Tracker.reset
    ports := { s.ports with resp := none, imemReq := none, drawSampled := false } }

/-- No command is valid (R5, R85, R232): the tracker holds its state, and the response, valid for one
period, is over. -/
def idle (s : State) : State :=
  { s with ports := { s.ports with resp := none, imemReq := none, drawSampled := false } }

/-- The head of what the outside drives has been taken. -/
def takeEvent (s : State) (rest : List PortEvent) : State :=
  { s with ports := { s.ports with pending := rest } }

/-- A command is accepted (R84, R85): the inputs hold what is driven during it. -/
def acceptCommand (s : State) (draw : Nat) (imemData : Word) (rest : List PortEvent) : State :=
  { s with ports := { s.ports with draw := draw, imemData := imemData, pending := rest } }

end Sys2Proof.Machine
end

