-- ==== Sys2Proof/Machine/Branch.lean ====
section
/-! DEFINITION. The branch predictor: UPDATE_BP, DO_JUMP, DO_CALL, DO_RET, RAS_PUSH, RAS_POP
(44_branch.md). -/

namespace Sys2Proof.Machine

/-- The counter of the entry that the history `h` selects (R35, R165). -/
def counterAt (e : BhtEntry) (h : BitVec Config.bhtHistBits) : BitVec Config.bhtCtrBits := e.counters[h.toNat]'(h.isLt)

/-- R165: taken exactly when the counter the stored history selects is at least `BHT_THRESHOLD`. -/
def bhtPredict (t : Tracker) (pc : Addr) : Bool :=
  decide (bhtThreshold ≤ (counterAt (bhtAt t pc) (bhtAt t pc).history).toNat)

/-- R166: the history first, then the counter the new history selects. -/
def trainEntry (e : BhtEntry) (taken : Bool) : BhtEntry :=
  let h := shiftHistory e.history taken
  { history := h, counters := e.counters.set h.toNat (saturate taken (counterAt e h)) h.isLt }

/-- R166, `bht_update(pc, taken)`. -/
def bhtUpdate (pc : Addr) (taken : Bool) (t : Tracker) : Tracker :=
  setBht t pc (trainEntry (bhtAt t pc) taken)

/-- R168, steps 2 and 3: what the resolved branch costs and what it writes to the BTB. -/
def resolveBranch (branchPc newPc : Addr) (taken : Bool) (t : Tracker) : Except Cause Tracker :=
  if bhtPredict t branchPc then
    if taken then
      if btbAt t branchPc = newPc then .ok t else stall mispredict (setBtb t branchPc newPc)
    else stall mispredict t
  else
    if taken then stall mispredict (setBtb t branchPc newPc) else .ok t

/-- R168, `update_branch_prediction(branch_pc, new_pc, taken)`. -/
def updateBranchPrediction (branchPc newPc : Addr) (taken : Bool) (t : Tracker) : Except Cause Tracker :=
  (resolveBranch branchPc newPc taken t).map (bhtUpdate branchPc taken)

/-- R169, `do_jump(origin_pc, target_pc, fall_through_address)`: the fall-through has no effect. -/
def doJump (originPc targetPc : Addr) (t : Tracker) : Except Cause Tracker :=
  if btbAt t originPc = targetPc then .ok t else stall mispredict (setBtb t originPc targetPc)

/-- R172, `ras_push(a)`. -/
def rasPush (a : Addr) (t : Tracker) : Tracker :=
  { t with ras := (if t.ras.length = rasCap then t.ras.tail else t.ras) ++ [a] }

/-- R173, `ras_pop()`: the newest entry and the tracker without it. -/
def rasPop (t : Tracker) : Except Cause (Addr × Tracker) :=
  match t.ras.getLast? with
  | none => .error .rasPopEmpty
  | some a => .ok (a, { t with ras := t.ras.dropLast })

/-- R170, `do_call`. -/
def doCall (originPc targetPc fallThrough : Addr) (t : Tracker) : Except Cause Tracker :=
  (doJump originPc targetPc t).map (rasPush fallThrough)

/-- R171, `do_ret`: an empty stack, or a predicted address that is not the target, falls back to
`do_jump` whole (C5, D17). -/
def doRet (originPc targetPc : Addr) (t : Tracker) : Except Cause Tracker :=
  if t.ras = [] then doJump originPc targetPc t
  else
    (rasPop t).bind fun p =>
    if p.1 = targetPc then .ok p.2 else doJump originPc targetPc p.2

/-- UPDATE_BP (R168): the data is the prediction that was made. -/
def execUpdateBp (branchPc newPc : Addr) (taken : Bool) (s : State) : Host.Outcome State Fault Refusal :=
  runCommand s none false
    ((updateBranchPrediction branchPc newPc taken s.tracker).map fun t => (t, bitData (bhtPredict s.tracker branchPc)))

/-- DO_JUMP (R169). -/
def execDoJump (originPc targetPc _fallThrough : Addr) (s : State) : Host.Outcome State Fault Refusal :=
  runQuiet s (doJump originPc targetPc s.tracker)

/-- DO_CALL (R170). -/
def execDoCall (originPc targetPc fallThrough : Addr) (s : State) : Host.Outcome State Fault Refusal :=
  runQuiet s (doCall originPc targetPc fallThrough s.tracker)

/-- DO_RET (R171). -/
def execDoRet (originPc targetPc _fallThrough : Addr) (s : State) : Host.Outcome State Fault Refusal :=
  runQuiet s (doRet originPc targetPc s.tracker)

/-- RAS_PUSH (R172). -/
def execRasPush (a : Addr) (s : State) : Host.Outcome State Fault Refusal :=
  runQuiet s (.ok (rasPush a s.tracker))

/-- RAS_POP (R173): the data is the popped address. -/
def execRasPop (s : State) : Host.Outcome State Fault Refusal :=
  runCommand s none false ((rasPop s.tracker).map fun p => (p.2, addrData p.1))

end Sys2Proof.Machine
end

