-- ==== Sys2Proof/Machine/ICache.lean ====
section
/-! DEFINITION. The instruction-cache miss simulator: FETCH (45_icache.md). -/

namespace Sys2Proof.Machine

/-- R201: the block is resident in the bucket. Raw comparison, no valid bit (C3, D20). -/
def icHit (t : Tracker) (pc : Addr) : Bool :=
  decide ((icAt t pc).firstBlock = icBlock pc) || decide ((icAt t pc).secondBlock = icBlock pc)

/-- R201: the bucket after a hit; way 0 is tested first, and the other way becomes the victim. -/
def touchBucket (e : CacheBucket) (b : Addr) : CacheBucket :=
  if e.firstBlock = b then { e with lruFlag := true } else { e with lruFlag := false }

/-- R201: the bucket after a miss; the victim takes the block and the marker flips. -/
def fillBucket (e : CacheBucket) (b : Addr) : CacheBucket :=
  if e.lruFlag then { e with secondBlock := b, lruFlag := false }
  else { e with firstBlock := b, lruFlag := true }

/-- R201, `fetch(pc)`, up to the call of IMem; `penalty` is the value drawn, used on a miss only. -/
def fetchTiming (pc : Addr) (penalty : Nat) (t : Tracker) : Except Cause Tracker :=
  if icHit t pc then .ok (setIc t pc (touchBucket (icAt t pc) (icBlock pc)))
  else (stall penalty t).map fun t1 => setIc t1 pc (fillBucket (icAt t pc) (icBlock pc))

/-- FETCH (R201): a miss consumes a draw, a hit none; the word is what IMem answers for `pc` (R68). -/
def execFetch (pc : Addr) (s : State) : Host.Outcome State Fault Refusal :=
  let hit := icHit s.tracker pc
  runCommand s (some pc) (!hit)
    ((fetchTiming pc (drawFrom s.build.miss s.ports.draw) s.tracker).map fun t =>
      (t, fetchData hit s.ports.imemData))

end Sys2Proof.Machine
end

