-- ==== Sys2Proof/Machine/RegisterLatency.lean ====
section
/-! DEFINITION. The register hazard detector: ACCESS_REG, ADD_LAT (41_register_latency.md). -/

namespace Sys2Proof.Machine

/-- ACCESS_REG (R120). -/
def execAccessReg (reg : RegIx) (s : State) : Host.Outcome State Fault Refusal :=
  runQuiet s (accessRegister reg s.tracker)

/-- ADD_LAT (R121). -/
def execAddLat (reg : RegIx) (cycles : Count) (s : State) : Host.Outcome State Fault Refusal :=
  runQuiet s (addResultLatency reg cycles.toNat s.tracker)

end Sys2Proof.Machine
end

