-- ==== Sys2Proof/Machine/StoreLoad.lean ====
section
/-! DEFINITION. The store-forwarding hazard detector: RESERVE_STORE, HAS_STORE, DO_LOAD
(43_store_load.md). -/

namespace Sys2Proof.Machine

/-- R30: `|stores| < STORE_SLOTS` fails; never, when unbounded. -/
def storeSetFull (slots : Option Nat) (t : Tracker) : Bool :=
  match slots with
  | none => false
  | some k => decide (k ≤ t.stores.length)

/-- R150, `reserve_store(r, n)`. -/
def reserveStore (slots : Option Nat) (r : AddrRange) (n : Nat) (t : Tracker) : Except Cause Tracker :=
  if rangeOk r then
    if storeSetFull slots t then .error .storeSetFull
    else .ok { t with stores := t.stores ++ [{ range := r, remaining := n + storeExtra }] }
  else .error .badRange

/-- R151: some live store reservation overlaps the range. -/
def hasStoreReservation (r : AddrRange) (t : Tracker) : Bool :=
  t.stores.any fun s => rangesOverlap s.range r

/-- R152: the cycles charged to a load that overlaps a live store. -/
def forwardPenalty (r : AddrRange) : Nat :=
  if rangeSize r < wordBytes then fwdPenalty + subwordExtra else fwdPenalty

/-- R152, `do_load(r, dest_reg, base_latency)`. -/
def doLoad (r : AddrRange) (reg : RegIx) (baseLatency : Nat) (t : Tracker) : Except Cause Tracker :=
  if rangeOk r then
    if baseLatency = 0 then .error .badCount
    else
      (if hasStoreReservation r t then stall (forwardPenalty r) t else .ok t).bind
        (addResultLatency reg baseLatency)
  else .error .badRange

/-- RESERVE_STORE (R150). -/
def execReserveStore (start : Addr) (stop : RangeEnd) (n : Count) (s : State) : Host.Outcome State Fault Refusal :=
  runQuiet s (reserveStore s.build.storeSlots { start := start, stop := stop } n.toNat s.tracker)

/-- HAS_STORE (R151). -/
def execHasStore (start : Addr) (stop : RangeEnd) (s : State) : Host.Outcome State Fault Refusal :=
  let r : AddrRange := { start := start, stop := stop }
  runCommand s none false
    (if rangeOk r then .ok (s.tracker, bitData (hasStoreReservation r s.tracker)) else .error .badRange)

/-- DO_LOAD (R152). -/
def execDoLoad (start : Addr) (stop : RangeEnd) (reg : RegIx) (baseLatency : Count) (s : State) :
    Host.Outcome State Fault Refusal :=
  runQuiet s (doLoad { start := start, stop := stop } reg baseLatency.toNat s.tracker)

end Sys2Proof.Machine
end

