-- ==== Sys2Proof/Machine/Time.lean ====
section
/-! DEFINITION. Time: ADVANCE, STALL, RD_CYCLES (40_time.md). -/

namespace Sys2Proof.Machine

/-- ADVANCE (R111). -/
def execAdvance (n : Count) (s : State) : Host.Outcome State Fault Refusal :=
  runQuiet s (advance n.toNat s.tracker)

/-- STALL (R112). -/
def execStall (n : Count) (s : State) : Host.Outcome State Fault Refusal :=
  runQuiet s (stall n.toNat s.tracker)

/-- RD_CYCLES (R113). -/
def execRdCycles (s : State) : Host.Outcome State Fault Refusal :=
  runCommand s none false (.ok (s.tracker, BitVec.ofNat 64 s.tracker.totalCycles))

end Sys2Proof.Machine
end

