-- ==== Sys2Proof/Machine/Units.lean ====
section
/-! DEFINITION. The resource-reservation busy counters: RESERVE_MULT, RESERVE_DIV, DO_MULT, DO_DIV,
DO_CSR (42_units.md). -/

namespace Sys2Proof.Machine

/-- R133, R134: reserve the unit for `lat` cycles, then schedule the result `RESULT_EXTRA` later. -/
def useUnit (u : FuncUnit) (reg : RegIx) (lat : Nat) (t : Tracker) : Except Cause Tracker :=
  (reserve u lat t).bind (addResultLatency reg (lat + resultExtra))

/-- RESERVE_MULT (R131). -/
def execReserveMult (n : Count) (s : State) : Host.Outcome State Fault Refusal :=
  runQuiet s (reserve .mult n.toNat s.tracker)

/-- RESERVE_DIV (R132). -/
def execReserveDiv (n : Count) (s : State) : Host.Outcome State Fault Refusal :=
  runQuiet s (reserve .div n.toNat s.tracker)

/-- DO_MULT (R133): the operands `a`, `b` are accepted and have no effect. -/
def execDoMult (reg : RegIx) (_a _b : Word) (s : State) : Host.Outcome State Fault Refusal :=
  runQuiet s (useUnit .mult reg multCost s.tracker)

/-- DO_DIV (R134): one draw is consumed, before the stall; `a`, `b` have no effect. -/
def execDoDiv (reg : RegIx) (_a _b : Word) (s : State) : Host.Outcome State Fault Refusal :=
  runCommand s none true
    ((useUnit .div reg (drawFrom s.build.div s.ports.draw) s.tracker).map fun t => (t, 0))

/-- DO_CSR (R135). -/
def execDoCsr (reg : RegIx) (s : State) : Host.Outcome State Fault Refusal :=
  runQuiet s (addResultLatency reg csrLat s.tracker)

end Sys2Proof.Machine
end

