-- ==== Sys2Proof/Machine/Dispatch.lean ====
section
/-! DEFINITION. One arm per command (30_encoding.md rule R89). -/

namespace Sys2Proof.Machine

def exec (i : Instr) (s : State) : Host.Outcome State Fault Refusal :=
  match i with
  | .advance n => Sys2Proof.Machine.execAdvance n s
  | .stall n => Sys2Proof.Machine.execStall n s
  | .accessReg reg => Sys2Proof.Machine.execAccessReg reg s
  | .addLat reg cycles => Sys2Proof.Machine.execAddLat reg cycles s
  | .reserveMult n => Sys2Proof.Machine.execReserveMult n s
  | .reserveDiv n => Sys2Proof.Machine.execReserveDiv n s
  | .doMult reg a b => Sys2Proof.Machine.execDoMult reg a b s
  | .doDiv reg a b => Sys2Proof.Machine.execDoDiv reg a b s
  | .doCsr reg => Sys2Proof.Machine.execDoCsr reg s
  | .reserveStore start stop n => Sys2Proof.Machine.execReserveStore start stop n s
  | .hasStore start stop => Sys2Proof.Machine.execHasStore start stop s
  | .doLoad start stop reg baseLatency => Sys2Proof.Machine.execDoLoad start stop reg baseLatency s
  | .updateBp branchPc newPc taken => Sys2Proof.Machine.execUpdateBp branchPc newPc taken s
  | .doJump originPc targetPc fallThrough => Sys2Proof.Machine.execDoJump originPc targetPc fallThrough s
  | .doCall originPc targetPc fallThrough => Sys2Proof.Machine.execDoCall originPc targetPc fallThrough s
  | .doRet originPc targetPc fallThrough => Sys2Proof.Machine.execDoRet originPc targetPc fallThrough s
  | .rasPush a => Sys2Proof.Machine.execRasPush a s
  | .rasPop => Sys2Proof.Machine.execRasPop s
  | .fetch pc => Sys2Proof.Machine.execFetch pc s
  | .rdCycles => Sys2Proof.Machine.execRdCycles s

end Sys2Proof.Machine
end

