-- ==== Sys2Proof/Machine/Step.lean ====
section
/-! DEFINITION. One step: the tracker takes what the outside drives next and serves it
(00_scope.md rule R5; 30_encoding.md rules R85, R96). -/

namespace Sys2Proof.Machine

/-- A command word is served (R96): a legal one runs, an illegal one raises ILLEGAL_CMD; both answer
R225 while `fault` is set. -/
def runWord (w : CmdWord) (s : State) : Host.Outcome State Fault Refusal :=
  match decode w with
  | .ok i => exec i s
  | .error _ => illegalCommand s

/-- One step. With nothing driven the tracker is idle (R232). -/
def step (s : State) : Host.Outcome State Fault Refusal :=
  match s.ports.pending with
  | [] => .next (idle s)
  | .rst :: rest => .next (takeReset (takeEvent s rest))
  | .command w draw imemData :: rest => runWord w (acceptCommand s draw imemData rest)

/-- `s` with the given command driven next, the inputs as they are (log entry 11). -/
def State.withFetchWord (s : State) (nbits w : Nat) : State :=
  { s with ports := { s.ports with
      pending := .command (tableWord nbits w) s.ports.draw s.ports.imemData :: s.ports.pending } }

end Sys2Proof.Machine
end

