-- ==== Sys2Proof/Safety.lean ====
section
/-! DEFINITION. The words the claims use: what one command may leave (`Done`, `Faulted`), what `n` cycles
do to the tracker (`Aged`, 40_time.md rule R110), the invariant of every run (`Invariant`), and the sum of the
charges of a run (40_time.md rule R115). They are written from the spec's sentences, not from the
definitions of Machine/. -/

namespace Sys2Proof.Safety

open Sys2Proof.Machine

/-- R110 for one unit: released when it is not acquired or reaches zero or below, else `n` less. -/
def agedUnit (n : Nat) (u : OpReservation) : OpReservation :=
  if u.acquired then
    (if u.remaining ≤ n then { acquired := false, remaining := 0 }
     else { acquired := true, remaining := u.remaining - n })
  else u

/-- R110: what `advance(n)` makes of the tracker `t`, and that it leaves the rest (note (e)). -/
structure Aged (n : Nat) (t t' : Tracker) : Prop where
  reglat : ∀ i : RegIx, latency t' i = latency t i - n
  mult : t'.mult = agedUnit n t.mult
  div : t'.div = agedUnit n t.div
  stores : t'.stores =
    (t.stores.filter fun r => decide (n < r.remaining)).map fun r => { r with remaining := r.remaining - n }
  totalCycles : t'.totalCycles = t.totalCycles + n
  bht : t'.bht = t.bht
  btb : t'.btb = t.btb
  ras : t'.ras = t.ras
  ic : t'.ic = t.ic
  fault : t'.fault = t.fault
  cause : t'.cause = t.cause

/-- Waiting `n` cycles, or not at all. -/
def Waited (n : Nat) (t t' : Tracker) : Prop := if n = 0 then t' = t else Aged n t t'

/-- `total_cycles` can take `n` more cycles without reaching `2^64` (R33). -/
def Room (n : Nat) (s : State) : Prop := s.tracker.totalCycles + n < 2 ^ 64

/-- The ports and the build after a command that completed (30_encoding.md rule R87, OK). -/
def Done (s s' : State) (data : BitVec 64) (charged : Nat) (imemReq : Option Addr) (drew : Bool) : Prop :=
  s'.build = s.build ∧
  s'.ports = { s.ports with
    resp := some { status := .ok, cause := 0, data := data, charged := BitVec.ofNat 32 charged }
    imemReq := imemReq
    drawSampled := drew }

/-- The machine after a command that raised the cause with the given code: nothing of the tracker but
`fault` and `cause` changed (60_exceptions.md rule R224; R87, FAULT). -/
def Faulted (s s' : State) (code : BitVec 4) (drew : Bool) : Prop :=
  s'.tracker = { s.tracker with fault := true, cause := code } ∧
  s'.build = s.build ∧
  s'.ports = { s.ports with
    resp := some { status := .fault, cause := code, data := 0, charged := 0 }
    imemReq := none
    drawSampled := drew }

/-- R25, R26: how long the unit is still busy. -/
def busyFor (u : OpReservation) : Nat := if u.acquired then u.remaining else 0

/-- R26 (a), (b), with the bound the operand widths give. -/
def UnitOk (u : OpReservation) : Prop :=
  (u.acquired = true → 1 ≤ u.remaining ∧ u.remaining < 2 ^ 32) ∧ (u.acquired = false → u.remaining = 0)

/-- R29, R60: `start <= end <= 2^32` and `remaining >= 1`, with the bound the operand widths give. -/
def StoreOk (r : StoreReservation) : Prop :=
  r.range.start.toNat ≤ r.range.stop.toNat ∧ r.range.stop.toNat ≤ 2 ^ 32 ∧
    1 ≤ r.remaining ∧ r.remaining ≤ 2 ^ 32

/-- R43, and R201 corner case (b): block addresses have their low 14 bits zero, and the two ways are
equal only when both are 0. -/
def BucketOk (e : CacheBucket) : Prop :=
  e.firstBlock.extractLsb' 0 14 = 0 ∧ e.secondBlock.extractLsb' 0 14 = 0 ∧
    (e.firstBlock = e.secondBlock → e.firstBlock = 0)

/-- R45, R221, R222: the cause is 0 while `fault` is false, and otherwise a code a command can raise. -/
def CauseOk (t : Tracker) : Prop :=
  (t.fault = false → t.cause = 0) ∧
  (t.fault = true → t.cause = 1 ∨ t.cause = 2 ∨ t.cause = 3 ∨ t.cause = 4 ∨ t.cause = 7 ∨ t.cause = 8 ∨ t.cause = 9)

/-- The invariant of every run (10_state.md). -/
structure Invariant (s : State) : Prop where
  build : s.build.legal
  reglat : ∀ i : RegIx, latency s.tracker i < 2 ^ 32
  mult : UnitOk s.tracker.mult
  div : UnitOk s.tracker.div
  stores : ∀ r ∈ s.tracker.stores, StoreOk r
  slots : ∀ k, s.build.storeSlots = some k → s.tracker.stores.length ≤ k
  totalCycles : s.tracker.totalCycles < 2 ^ 64
  ras : s.tracker.ras.length ≤ 2
  ic : ∀ e ∈ s.tracker.ic.toList, BucketOk e
  cause : CauseOk s.tracker

/-- 44_branch.md rule R166: the counter that history 0 selects never leaves 0 from reset. -/
def NotTakenCountersZero (s : State) : Prop :=
  ∀ e ∈ s.tracker.bht.toList, e.counters[0] = 0

/-- The cycles the last command charged (R87). -/
def chargedOf (s : State) : Nat :=
  match s.ports.resp with
  | some r => r.charged.toNat
  | none => 0

/-- The sum of the charges of the next `k` steps. -/
def runCharged : Nat → State → Nat
  | 0, _ => 0
  | k + 1, s =>
    match step s with
    | .next t => chargedOf t + runCharged k t
    | .fault _ => 0
    | .refused _ => 0

/-- The driver's next events hold no reset: one run (70_reset_and_hazards.md rule R254). -/
def NoReset (s : State) : Prop := PortEvent.rst ∉ s.ports.pending

/-- 44_branch.md rule R174: the branch at `pc` has been taken twice to `target`. -/
def Converged (pc target : Addr) (t : Tracker) : Prop :=
  (bhtAt t pc).history = 1 ∧ 2 ≤ (bhtAt t pc).counters[1].toNat ∧ btbAt t pc = target

/-- The causes the rules of each command let it raise (60_exceptions.md rule R222). -/
def mayRaise : Instr → BitVec 4 → Prop
  | .advance _, c => c = 2 ∨ c = 9
  | .stall _, c => c = 2 ∨ c = 9
  | .accessReg _, c => c = 9
  | .addLat _ _, c => c = 2 ∨ c = 4
  | .reserveMult _, c => c = 2 ∨ c = 9
  | .reserveDiv _, c => c = 2 ∨ c = 9
  | .doMult _ _ _, c => c = 4 ∨ c = 9
  | .doDiv _ _ _, c => c = 4 ∨ c = 9
  | .doCsr _, c => c = 4
  | .reserveStore _ _ _, c => c = 3 ∨ c = 8
  | .hasStore _ _, c => c = 3
  | .doLoad _ _ _ _, c => c = 2 ∨ c = 3 ∨ c = 4 ∨ c = 9
  | .updateBp _ _ _, c => c = 9
  | .doJump _ _ _, c => c = 9
  | .doCall _ _ _, c => c = 9
  | .doRet _ _ _, c => c = 9
  | .rasPush _, _ => False
  | .rasPop, c => c = 7
  | .fetch _, c => c = 9
  | .rdCycles, _ => False

/-- R63: some byte address lies in both ranges. -/
def SharesByte (r : AddrRange) (start : Addr) (stop : RangeEnd) : Prop :=
  ∃ a : Nat, r.start.toNat ≤ a ∧ a < r.stop.toNat ∧ start.toNat ≤ a ∧ a < stop.toNat

/-- R151: some live store reservation overlaps the range. -/
def StoreOverlaps (t : Tracker) (start : Addr) (stop : RangeEnd) : Prop :=
  ∃ r ∈ t.stores, SharesByte r.range start stop

/-- R152, R153: the stall of a load: 0 without overlap, else 5, and 2 more below 4 bytes. -/
def LoadExtra (t : Tracker) (start : Addr) (stop : RangeEnd) (extra : Nat) : Prop :=
  (¬ StoreOverlaps t start stop ∧ extra = 0) ∨
  (StoreOverlaps t start stop ∧ stop.toNat - start.toNat < 4 ∧ extra = 5 + 2) ∨
  (StoreOverlaps t start stop ∧ 4 ≤ stop.toNat - start.toNat ∧ extra = 5)

/-- R165: the counter that the stored history selects is at least 2. -/
def predictedTaken (t : Tracker) (pc : Addr) : Bool :=
  decide (2 ≤ ((bhtAt t pc).counters[(bhtAt t pc).history.toNat]'((bhtAt t pc).history.isLt)).toNat)

/-- R168, the four cases: the branch is mispredicted. -/
def branchMissed (t : Tracker) (pc newPc : Addr) (taken : Bool) : Bool :=
  predictedTaken t pc != taken || (taken && btbAt t pc != newPc)

/-- R166: the entry after an outcome: the history is the outcome, and the counter it selects moves by
one, staying in `0..3`. -/
def trained (e : BhtEntry) (taken : Bool) : BhtEntry :=
  if taken then { history := 1, counters := e.counters.set 1 (BitVec.ofNat 2 (min (e.counters[1].toNat + 1) 3)) }
  else { history := 0, counters := e.counters.set 0 (BitVec.ofNat 2 (e.counters[0].toNat - 1)) }

/-- R169: what a jump charges. -/
def jumpCharge (t : Tracker) (origin target : Addr) : Nat := if btbAt t origin = target then 0 else 3

/-- R201: the block of `pc` is resident in its bucket. -/
def resident (t : Tracker) (pc : Addr) : Bool :=
  (icAt t pc).firstBlock == icBlock pc || (icAt t pc).secondBlock == icBlock pc

/-- R270: the cycles each command charges when it completes, in the state it finds; `d` is the value a
missing FETCH draws. -/
def ChargeOf (s : State) (d : Nat) : Instr → Nat → Prop
  | .advance n, c => c = n.toNat
  | .stall n, c => c = n.toNat
  | .accessReg reg, c => c = latency s.tracker reg
  | .addLat _ _, c => c = 0
  | .reserveMult _, c => c = busyFor s.tracker.mult
  | .reserveDiv _, c => c = busyFor s.tracker.div
  | .doMult _ _ _, c => c = busyFor s.tracker.mult
  | .doDiv _ _ _, c => c = busyFor s.tracker.div
  | .doCsr _, c => c = 0
  | .reserveStore _ _ _, c => c = 0
  | .hasStore _ _, c => c = 0
  | .doLoad start stop _ _, c => LoadExtra s.tracker start stop c
  | .updateBp pc newPc taken, c => c = if branchMissed s.tracker pc newPc taken then 3 else 0
  | .doJump origin target _, c => c = jumpCharge s.tracker origin target
  | .doCall origin target _, c => c = jumpCharge s.tracker origin target
  | .doRet origin target _, c =>
    c = if s.tracker.ras.getLast? = some target then 0 else jumpCharge s.tracker origin target
  | .rasPush _, c => c = 0
  | .rasPop, c => c = 0
  | .fetch pc, c => c = if resident s.tracker pc then 0 else d
  | .rdCycles, c => c = 0

/-- R131 to R134: the command reserves the unit, for `k` cycles. -/
def reserves (s : State) : FuncUnit → Instr → Nat → Prop
  | .mult, .reserveMult n, k => k = n.toNat
  | .mult, .doMult _ _ _, k => k = 6
  | .div, .reserveDiv n, k => k = n.toNat
  | .div, .doDiv _ _ _, k => s.build.div.lo ≤ k ∧ k ≤ s.build.div.hi
  | _, _, _ => False

/-- R88: whether the command consumes a draw. -/
def draws (s : State) : Instr → Bool
  | .doDiv _ _ _ => true
  | .fetch pc => !resident s.tracker pc
  | _ => false

end Sys2Proof.Safety
end

