-- ==== Sys2Proof/Certificates/Slice0/Obligations.lean ====
section
/-! DEFINITION. The statements for the provers. Numbers are the spec's own, written out. -/

section

open Sys2Proof
open Sys2Proof.Machine
open Sys2Proof.Safety

/-! ## Encoding -/

/-- R80 to R83, R89, R92 (the layout and the opcodes are the spec's decisions D2, D26): for every value
of every field, the word with the given opcode and the reserved bits zero decodes to the row's command,
and the fields the row does not use have no effect. -/
def Obligations.OpcodeMapAndIgnoredFields : Prop :=
  ∀ (reg : RegIx) (flag bhi : BitVec 1) (n a b c : BitVec 32),
    let word (op : BitVec 8) : CmdWord :=
      c ++ (b ++ (a ++ (n ++ (0#14 ++ (bhi ++ (flag ++ (0#3 ++ (reg ++ op))))))))
    decode (word 0x01) = .ok (.advance n) ∧
    decode (word 0x02) = .ok (.stall n) ∧
    decode (word 0x03) = .ok (.accessReg reg) ∧
    decode (word 0x04) = .ok (.addLat reg n) ∧
    decode (word 0x05) = .ok (.reserveMult n) ∧
    decode (word 0x06) = .ok (.reserveDiv n) ∧
    decode (word 0x07) = .ok (.doMult reg a b) ∧
    decode (word 0x08) = .ok (.doDiv reg a b) ∧
    decode (word 0x09) = .ok (.doCsr reg) ∧
    decode (word 0x0A) = .ok (.reserveStore a (bhi ++ b) n) ∧
    decode (word 0x0B) = .ok (.hasStore a (bhi ++ b)) ∧
    decode (word 0x0C) = .ok (.doLoad a (bhi ++ b) reg n) ∧
    decode (word 0x0D) = .ok (.updateBp a b (flag == 1)) ∧
    decode (word 0x0E) = .ok (.doJump a b c) ∧
    decode (word 0x0F) = .ok (.doCall a b c) ∧
    decode (word 0x10) = .ok (.doRet a b c) ∧
    decode (word 0x11) = .ok (.rasPush a) ∧
    decode (word 0x12) = .ok .rasPop ∧
    decode (word 0x13) = .ok (.fetch a) ∧
    decode (word 0x14) = .ok .rdCycles

/-- Decoding the word written for a command gives the command back, for every command and every value
of its operands (R80 to R83, R89; D2). -/
def Obligations.DecodeEncodeAgree : Prop := ∀ i : Instr, decode (encode i) = .ok i

/-- R91 (D26) and R90 (D2): a word is refused exactly when its opcode is `0x00` or `0x15..0xFF` or a
reserved bit is set; and it decodes exactly when `W0 and 0xFFFCE0FF` is an opcode of the table. -/
def Obligations.IllegalWordsAreRejected : Prop :=
  ∀ w : CmdWord,
    ((∃ e, decode w = .error e) ↔
      ((w.extractLsb' 0 8).toNat = 0 ∨ 0x15 ≤ (w.extractLsb' 0 8).toNat ∨
        w.extractLsb' 13 3 ≠ 0 ∨ w.extractLsb' 18 14 ≠ 0)) ∧
    ((∃ i, decode w = .ok i) ↔
      ∃ op : Nat, 0x01 ≤ op ∧ op ≤ 0x14 ∧ w.extractLsb' 0 32 &&& 0xFFFCE0FF#32 = BitVec.ofNat 32 op)

/-- Words of 95_test_vectors.md E1, written there from the layout, decode to their commands. -/
def Obligations.SampleWordsDecode : Prop :=
  decode 0x000000000000000000000000FFFFFFFF00000002 = .ok (.stall 0xFFFFFFFF) ∧
  decode 0x0000000000000000000000000000000700001F04 = .ok (.addLat 31 7) ∧
  decode 0x000000009ABCDEF0123456780000000000000307 = .ok (.doMult 3 0x12345678 0x9ABCDEF0) ∧
  decode 0x0000000000000000FFFFFFFC000000020002000A = .ok (.reserveStore 0xFFFFFFFC 0x100000000 2) ∧
  decode 0x000000008000010080000104000000000001000D = .ok (.updateBp 0x80000104 0x80000100 true) ∧
  decode 0x000003040000080000000300000000000000000F = .ok (.doCall 0x300 0x800 0x304) ∧
  decode 0x0000000000000000200000000000000000000013 = .ok (.fetch 0x20000000)

/-! ## The step -/

/-- R85, R96: when the word driven next decodes, the step is the command's meaning in the state that has
accepted it: the event taken, the inputs as driven during the command. -/
def Obligations.StepRunsDecodedCommand : Prop :=
  ∀ (s : State) (w : CmdWord) (draw : Nat) (imemData : Word) (rest : List PortEvent) (i : Instr),
    s.ports.pending = .command w draw imemData :: rest → decode w = .ok i →
    step s = exec i { s with ports := { s.ports with draw := draw, imemData := imemData, pending := rest } }

/-- R91, R96 (D26): an illegal word raises ILLEGAL_CMD, cause 1, and has no other effect. -/
def Obligations.IllegalWordRaisesIllegalCmd : Prop :=
  ∀ (s : State) (w : CmdWord) (draw : Nat) (imemData : Word) (rest : List PortEvent) (e : DecodeError),
    s.tracker.fault = false → s.ports.pending = .command w draw imemData :: rest → decode w = .error e →
    ∃ t, step s = .next t ∧
      Faulted { s with ports := { s.ports with draw := draw, imemData := imemData, pending := rest } } t 1 false

/-- R225 (D23): while `fault` is set, every word, legal or not, is answered FAULT with the first cause,
changes nothing of the tracker, consumes no draw and makes no call of the instruction memory. -/
def Obligations.FaultFreezesTracker : Prop :=
  ∀ (s : State) (w : CmdWord) (draw : Nat) (imemData : Word) (rest : List PortEvent),
    s.tracker.fault = true → s.ports.pending = .command w draw imemData :: rest →
    step s = .next
      { s with ports :=
          { draw := draw
            imemData := imemData
            resp := some { status := .fault, cause := s.tracker.cause, data := 0, charged := 0 }
            imemReq := none
            drawSampled := false
            pending := rest } }

/-- R5, R232: with nothing driven the tracker holds its state. That the model lets such a step happen, and
that it ends the response, is log entry 2. -/
def Obligations.IdleStepHoldsTracker : Prop :=
  ∀ s : State, s.ports.pending = [] → ∃ t, step s = .next t ∧ t.tracker = s.tracker ∧ t.build = s.build ∧
    t.ports = { s.ports with resp := none, imemReq := none, drawSampled := false }

/-- R250, R252 (D25): reset brings every component to its reset value, gives no response and touches
neither the build nor what the outside drives next. -/
def Obligations.ResetEventRestoresTracker : Prop :=
  ∀ (s : State) (rest : List PortEvent), s.ports.pending = .rst :: rest →
    ∃ t, step s = .next t ∧ t.tracker = State.reset.tracker ∧ t.build = s.build ∧
      t.ports = { s.ports with resp := none, imemReq := none, drawSampled := false, pending := rest }

/-- R226 (D23): a step that clears `fault` is a reset. -/
def Obligations.OnlyResetClearsFault : Prop :=
  ∀ s t : State, s.tracker.fault = true → step s = .next t → t.tracker.fault = false →
    ∃ rest, s.ports.pending = .rst :: rest

/-- R251 (D25): the reset value of every component. -/
def Obligations.ResetValues : Prop :=
  (∀ i : RegIx, latency State.reset.tracker i = 0) ∧
  State.reset.tracker.mult = { acquired := false, remaining := 0 } ∧
  State.reset.tracker.div = { acquired := false, remaining := 0 } ∧
  State.reset.tracker.stores = [] ∧
  State.reset.tracker.totalCycles = 0 ∧
  (∀ pc : Addr, bhtAt State.reset.tracker pc = { history := 0, counters := #v[0, 0] }) ∧
  (∀ pc : Addr, btbAt State.reset.tracker pc = 0) ∧
  State.reset.tracker.ras = [] ∧
  (∀ pc : Addr, icAt State.reset.tracker pc = { firstBlock := 0, secondBlock := 0, lruFlag := false }) ∧
  State.reset.tracker.fault = false ∧
  State.reset.tracker.cause = 0

/-- The invariant holds right after reset (R251, D25; the free windows of log entry 6 are legal, R8). -/
def Obligations.ResetSatisfiesInvariant : Prop := Invariant State.reset

/-- Every step keeps the invariant `Invariant`: the unit reservations (R26), the store reservations (R29), the
counter below `2^64` (R33), at most two return addresses (R39), the buckets (R43, R201 (b)), the cause
(R45, R222: the codes 5 and 6 never appear, R27), and the widths of what is in flight. -/
def Obligations.StepKeepsInvariant : Prop := ∀ s t : State, Invariant s → step s = .next t → Invariant t

/-- R166 calls this an invariant a model may prove: from reset the counter of history 0 stays 0. -/
def Obligations.NotTakenCountersStayZero : Prop :=
  NotTakenCountersZero State.reset ∧
  ∀ s t : State, NotTakenCountersZero s → step s = .next t → NotTakenCountersZero t

/-! ## Every command -/

/-- R85: exactly one response for every command: every command, in every state, leads to a next state
that shows a response. -/
def Obligations.EveryCommandAnswers : Prop :=
  ∀ (i : Instr) (s : State), ∃ t r, exec i s = .next t ∧ t.ports.resp = some r

/-- R224 (D23): a command that raises a fault changes nothing of the tracker but `fault` and `cause`, and
is answered FAULT with that cause. That a faulting command has made no call of the instruction memory, and
keeps a draw consumed, is the model's reading: log entry 10. -/
def Obligations.FaultsArePrecise : Prop :=
  ∀ (i : Instr) (s t : State), s.tracker.fault = false → exec i s = .next t → t.tracker.fault = true →
    Faulted s t t.tracker.cause (draws s i)

/-- R222 (an inference the spec marks as its own): in a state of a run, a command raises only the causes
listed for it. -/
def Obligations.CausesOfEachCommand : Prop :=
  ∀ (i : Instr) (s t : State), Invariant s → s.tracker.fault = false → exec i s = .next t →
    t.tracker.fault = true → mayRaise i t.tracker.cause

/-- R8, R20, R84: no command changes the build, the input ports or what the outside drives next. -/
def Obligations.CommandsLeaveInputsAlone : Prop :=
  ∀ (i : Instr) (s t : State), exec i s = .next t →
    t.build = s.build ∧ t.ports.draw = s.ports.draw ∧ t.ports.imemData = s.ports.imemData ∧
      t.ports.pending = s.ports.pending

/-- R32, R87, R270: a command that completes moves `total_cycles` by the amount its rule charges, and
`resp_charged` is that amount; for a missing FETCH it is the value drawn, a value of the window. -/
def Obligations.ChargesMoveTheCounter : Prop :=
  ∀ (i : Instr) (s t : State), Invariant s → s.tracker.fault = false → exec i s = .next t →
    t.tracker.fault = false →
    ∃ c, ChargeOf s (drawFrom s.build.miss s.ports.draw) i c ∧
      s.build.miss.lo ≤ drawFrom s.build.miss s.ports.draw ∧
      drawFrom s.build.miss s.ports.draw ≤ s.build.miss.hi ∧
      t.tracker.totalCycles = s.tracker.totalCycles + c ∧ chargedOf t = c

/-- R115: `total_cycles` is the sum of all `n` passed to `advance`, for every sequence of ADVANCE
commands, whatever stands in their unused fields and on the inputs; and over every run of one reset it
moves by the sum of the `charged` values of the responses. From reset it starts at 0. -/
def Obligations.RunTotalIsSumOfCharges : Prop :=
  State.reset.tracker.totalCycles = 0 ∧
  (∀ (events : List (Count × CmdWord × Nat × Word)) (rest : List PortEvent) (s : State),
    s.tracker.fault = false →
    (∀ n w d m, (n, w, d, m) ∈ events → decode w = .ok (.advance n) ∧ n ≠ 0) →
    Room (events.map fun e => e.1.toNat).sum s →
    s.ports.pending = events.map (fun e => .command e.2.1 e.2.2.1 e.2.2.2) ++ rest →
    ∃ t, core.run events.length s = .next t ∧ t.tracker.fault = false ∧
      t.tracker.totalCycles = s.tracker.totalCycles + (events.map fun e => e.1.toNat).sum) ∧
  (∀ (k : Nat) (s t : State), Invariant s → NoReset s → core.run k s = .next t →
    t.tracker.totalCycles = s.tracker.totalCycles + runCharged k s)

/-- R221, R222 (the code and the rule for RESERVE_MULT and RESERVE_DIV are the spec's decisions D23, D7):
a count of 0 raises BAD_COUNT, cause 2; DO_LOAD checks its range first (R223, D24). -/
def Obligations.ZeroCountFaults : Prop :=
  ∀ (s : State) (reg : RegIx) (start : Addr) (stop : RangeEnd), s.tracker.fault = false →
    start.toNat ≤ stop.toNat → stop.toNat ≤ 2 ^ 32 →
    ∀ i ∈ ([.advance 0, .stall 0, .addLat reg 0, .reserveMult 0, .reserveDiv 0,
        .doLoad start stop reg 0] : List Instr),
      ∃ t, exec i s = .next t ∧ Faulted s t 2 false

/-- R33, R110, R222 (CYCLE_OVERFLOW is the spec's decision D6): a command whose operands are well formed
and whose charge has no room below `2^64` raises CYCLE_OVERFLOW, cause 9, whatever would come after the
stall (R223, D24). The charge of a missing FETCH is the value drawn. What the command shows at the draw
and instruction memory ports is log entry 10. -/
def Obligations.ChargeWithoutRoomFaults : Prop :=
  ∀ (i : Instr) (s : State) (c : Nat), Invariant s → s.tracker.fault = false → i.wf = true →
    ChargeOf s (drawFrom s.build.miss s.ports.draw) i c → ¬ Room c s →
    ∃ t, exec i s = .next t ∧ Faulted s t 9 (draws s i)

/-- R121, R123, R261 (the code is D23): a command that creates a latency entry for a register whose entry
is still live at that point, that is after the command's own stall, raises DUP_REG_LATENCY, cause 4. That the draw of DO_DIV stays
consumed is log entry 10. -/
def Obligations.PendingDestinationFaults : Prop :=
  ∀ (s : State) (reg : RegIx), Invariant s → s.tracker.fault = false →
    (∀ cycles : Count, cycles ≠ 0 → latency s.tracker reg ≠ 0 →
      ∃ t, exec (.addLat reg cycles) s = .next t ∧ Faulted s t 4 false) ∧
    (latency s.tracker reg ≠ 0 → ∃ t, exec (.doCsr reg) s = .next t ∧ Faulted s t 4 false) ∧
    (∀ a b : Word, busyFor s.tracker.mult < latency s.tracker reg → Room (busyFor s.tracker.mult) s →
      ∃ t, exec (.doMult reg a b) s = .next t ∧ Faulted s t 4 false) ∧
    (∀ a b : Word, busyFor s.tracker.div < latency s.tracker reg → Room (busyFor s.tracker.div) s →
      ∃ t, exec (.doDiv reg a b) s = .next t ∧ Faulted s t 4 true) ∧
    (∀ (start : Addr) (stop : RangeEnd) (n : Count) (extra : Nat), rangeWf start stop = true → n ≠ 0 →
      LoadExtra s.tracker start stop extra → extra < latency s.tracker reg → Room extra s →
      ∃ t, exec (.doLoad start stop reg n) s = .next t ∧ Faulted s t 4 false)

/-! ## Time (40_time.md) -/

/-- R110, R111: ADVANCE ages everything that is in flight by `n`, moves the counter by `n`, and changes
nothing else. -/
def Obligations.AdvanceCompletes : Prop :=
  ∀ (n : Count) (s : State), s.tracker.fault = false → n ≠ 0 → Room n.toNat s →
    ∃ t, exec (.advance n) s = .next t ∧ Aged n.toNat s.tracker t.tracker ∧ Done s t 0 n.toNat none false

/-- R114: STALL does in every state exactly what ADVANCE does; in particular it completes where
ADVANCE does. -/
def Obligations.StallIsAdvance : Prop :=
  (∀ (n : Count) (s : State), exec (.stall n) s = exec (.advance n) s) ∧
  ∀ (n : Count) (s : State), s.tracker.fault = false → n ≠ 0 → Room n.toNat s →
    ∃ t, exec (.stall n) s = .next t ∧ Aged n.toNat s.tracker t.tracker ∧ Done s t 0 n.toNat none false

/-- R116 (an inference the spec marks as its own): two advances are one of the sum. -/
def Obligations.AdvancesCompose : Prop :=
  ∀ (a b : Count) (s t u : State), a ≠ 0 → b ≠ 0 → a.toNat + b.toNat < 2 ^ 32 →
    s.tracker.fault = false → exec (.advance a) s = .next t → exec (.advance b) t = .next u →
    u.tracker.fault = false →
    ∃ v, exec (.advance (a + b)) s = .next v ∧ v.tracker = u.tracker

/-- R113 (D2): RD_CYCLES answers the counter and changes nothing. -/
def Obligations.ReadCyclesCompletes : Prop :=
  ∀ s : State, s.tracker.fault = false →
    ∃ t, exec .rdCycles s = .next t ∧ t.tracker = s.tracker ∧
      Done s t (BitVec.ofNat 64 s.tracker.totalCycles) 0 none false

/-! ## Register latencies (41_register_latency.md) -/

/-- R120: ACCESS_REG waits for the register's remaining cycles, if it has any, and charges them; then the
register is available. -/
def Obligations.AccessRegisterCompletes : Prop :=
  ∀ (reg : RegIx) (s : State), s.tracker.fault = false → Room (latency s.tracker reg) s →
    ∃ t, exec (.accessReg reg) s = .next t ∧ Waited (latency s.tracker reg) s.tracker t.tracker ∧
      latency t.tracker reg = 0 ∧ Done s t 0 (latency s.tracker reg) none false

/-- R121: ADD_LAT enters the latency and changes nothing else; index 0 is not special (R23). -/
def Obligations.AddLatencyCompletes : Prop :=
  ∀ (reg : RegIx) (cycles : Count) (s : State), s.tracker.fault = false → cycles ≠ 0 →
    latency s.tracker reg = 0 →
    ∃ t, exec (.addLat reg cycles) s = .next t ∧
      t.tracker = { s.tracker with reglat := s.tracker.reglat.set reg.toNat cycles.toNat reg.isLt } ∧
      Done s t 0 0 none false

/-! ## Units (42_units.md) -/

/-- R130, R131: RESERVE_MULT waits while the multiply unit is busy, then holds it for `n` cycles. -/
def Obligations.ReserveMultCompletes : Prop :=
  ∀ (n : Count) (s : State), s.tracker.fault = false → UnitOk s.tracker.mult → n ≠ 0 →
    Room (busyFor s.tracker.mult) s →
    ∃ t m, exec (.reserveMult n) s = .next t ∧ Waited (busyFor s.tracker.mult) s.tracker m ∧
      t.tracker = { m with mult := { acquired := true, remaining := n.toNat } } ∧
      Done s t 0 (busyFor s.tracker.mult) none false

/-- R130, R132: RESERVE_DIV does the same for the divide unit. -/
def Obligations.ReserveDivCompletes : Prop :=
  ∀ (n : Count) (s : State), s.tracker.fault = false → UnitOk s.tracker.div → n ≠ 0 →
    Room (busyFor s.tracker.div) s →
    ∃ t m, exec (.reserveDiv n) s = .next t ∧ Waited (busyFor s.tracker.div) s.tracker m ∧
      t.tracker = { m with div := { acquired := true, remaining := n.toNat } } ∧
      Done s t 0 (busyFor s.tracker.div) none false

/-- R133: DO_MULT waits for the multiply unit, holds it for 6 cycles and enters a latency of 7 for the
destination, whatever the operand values; the destination's old entry must have expired by then. -/
def Obligations.DoMultCompletes : Prop :=
  ∀ (reg : RegIx) (a b : Word) (s : State), s.tracker.fault = false → UnitOk s.tracker.mult →
    Room (busyFor s.tracker.mult) s → latency s.tracker reg ≤ busyFor s.tracker.mult →
    ∃ t m, exec (.doMult reg a b) s = .next t ∧ Waited (busyFor s.tracker.mult) s.tracker m ∧
      t.tracker = { m with
        mult := { acquired := true, remaining := 6 }
        reglat := m.reglat.set reg.toNat 7 reg.isLt } ∧
      Done s t 0 (busyFor s.tracker.mult) none false

/-- R134 (D13 leaves the window open): DO_DIV draws a value of the window, the one the outside gives
(that an input outside the window is read as its nearest end is log entry 4), waits for the divide unit,
holds it for that many cycles and enters a latency one longer. -/
def Obligations.DoDivCompletes : Prop :=
  ∀ (reg : RegIx) (a b : Word) (s : State), s.tracker.fault = false → s.build.legal → UnitOk s.tracker.div →
    Room (busyFor s.tracker.div) s → latency s.tracker reg ≤ busyFor s.tracker.div →
    ∃ t m d, s.build.div.lo ≤ d ∧ d ≤ s.build.div.hi ∧
      (s.build.div.lo ≤ s.ports.draw → s.ports.draw ≤ s.build.div.hi → d = s.ports.draw) ∧
      exec (.doDiv reg a b) s = .next t ∧ Waited (busyFor s.tracker.div) s.tracker m ∧
      t.tracker = { m with
        div := { acquired := true, remaining := d }
        reglat := m.reglat.set reg.toNat (d + 1) reg.isLt } ∧
      Done s t 0 (busyFor s.tracker.div) none true

/-- R6, R88, R134, R201: any `d` of the window is the latency of a DO_DIV, and any `d` of its window the
penalty of a missing FETCH, when the outside gives it; and the draws that the hardware's port makes of its
levels are the values of the window. -/
def Obligations.DrawsCoverTheWindows : Prop :=
  (∀ (reg : RegIx) (a b : Word) (s : State) (d : Nat), s.tracker.fault = false → UnitOk s.tracker.div →
    1 ≤ s.build.div.lo → Room (busyFor s.tracker.div) s → latency s.tracker reg ≤ busyFor s.tracker.div →
    s.build.div.lo ≤ d → d ≤ s.build.div.hi →
    ∃ t, exec (.doDiv reg a b) { s with ports := { s.ports with draw := d } } = .next t ∧
      t.tracker.div = { acquired := true, remaining := d } ∧ latency t.tracker reg = d + 1) ∧
  (∀ (pc : Addr) (s : State) (d : Nat), s.tracker.fault = false → 1 ≤ s.build.miss.lo →
    resident s.tracker pc = false → Room d s → s.build.miss.lo ≤ d → d ≤ s.build.miss.hi →
    ∃ t, exec (.fetch pc) { s with ports := { s.ports with draw := d } } = .next t ∧
      t.tracker.totalCycles = s.tracker.totalCycles + d) ∧
  (∀ w : Config.Window, w.lo ≤ w.hi → w.hi < 2 ^ 32 →
    (∀ level, w.lo ≤ portDraw w level ∧ portDraw w level ≤ w.hi) ∧
    (∀ d, w.lo ≤ d → d ≤ w.hi → ∃ level, portDraw w level = d))

/-- R135: DO_CSR enters a latency of 5, never waits and touches neither unit. -/
def Obligations.DoCsrCompletes : Prop :=
  ∀ (reg : RegIx) (s : State), s.tracker.fault = false → latency s.tracker reg = 0 →
    ∃ t, exec (.doCsr reg) s = .next t ∧
      t.tracker = { s.tracker with reglat := s.tracker.reglat.set reg.toNat 5 reg.isLt } ∧
      Done s t 0 0 none false

/-- R136 (the terms of this spec are an inference it marks as its own): a reservation ends at a fixed
time. While a unit is busy, a command that reserves it anew and completes has first charged exactly the
time that was left, so that the two busy periods do not overlap; any other command that completes leaves
the end of the busy period where it was, or finds the unit released only once that time has come. -/
def Obligations.UnitBusyUntilDeadline : Prop :=
  ∀ (u : FuncUnit) (i : Instr) (s t : State), Invariant s → s.tracker.fault = false →
    (unitOf s.tracker u).acquired = true → exec i s = .next t → t.tracker.fault = false →
    (∃ k, reserves s u i k ∧ unitOf t.tracker u = { acquired := true, remaining := k } ∧
      t.tracker.totalCycles = s.tracker.totalCycles + (unitOf s.tracker u).remaining) ∨
    ((∀ k, ¬ reserves s u i k) ∧
      (((unitOf t.tracker u).acquired = true ∧
          t.tracker.totalCycles + (unitOf t.tracker u).remaining =
            s.tracker.totalCycles + (unitOf s.tracker u).remaining) ∨
        ((unitOf t.tracker u).acquired = false ∧
          s.tracker.totalCycles + (unitOf s.tracker u).remaining ≤ t.tracker.totalCycles)))

/-! ## Stores and loads (43_store_load.md) -/

/-- R150: RESERVE_STORE records the range for `n + 1` cycles; an equal or overlapping reservation stays
(R29, C9). -/
def Obligations.ReserveStoreCompletes : Prop :=
  ∀ (start : Addr) (stop : RangeEnd) (n : Count) (s : State), s.tracker.fault = false →
    start.toNat ≤ stop.toNat → stop.toNat ≤ 2 ^ 32 →
    (∀ k, s.build.storeSlots = some k → s.tracker.stores.length < k) →
    ∃ t, exec (.reserveStore start stop n) s = .next t ∧
      t.tracker = { s.tracker with stores := s.tracker.stores ++
        [{ range := { start := start, stop := stop }, remaining := n.toNat + 1 }] } ∧
      Done s t 0 0 none false

/-- R64 (the upper bound and the code are D9, D23): a range with `end < start` or `end > 2^32` raises
BAD_RANGE, cause 3, before any other check (R223, D24). -/
def Obligations.BadRangeFaults : Prop :=
  ∀ (start : Addr) (stop : RangeEnd) (reg : RegIx) (n : Count) (s : State), s.tracker.fault = false →
    (stop.toNat < start.toNat ∨ 2 ^ 32 < stop.toNat) →
    ∀ i ∈ ([.reserveStore start stop n, .hasStore start stop, .doLoad start stop reg n] : List Instr),
      ∃ t, exec i s = .next t ∧ Faulted s t 3 false

/-- R30, R150 (D10): a build with `k` store slots raises STORE_SET_FULL, cause 8, when all are live. -/
def Obligations.FiniteStoreSetFull : Prop :=
  ∀ (start : Addr) (stop : RangeEnd) (n : Count) (s : State) (k : Nat), s.tracker.fault = false →
    start.toNat ≤ stop.toNat → stop.toNat ≤ 2 ^ 32 →
    s.build.storeSlots = some k → k ≤ s.tracker.stores.length →
    ∃ t, exec (.reserveStore start stop n) s = .next t ∧ Faulted s t 8 false

/-- R63, R151 (the definition of overlap is D9): HAS_STORE answers in bit 0 whether some live store
reservation shares a byte with the range, and changes nothing. -/
def Obligations.HasStoreCompletes : Prop :=
  ∀ (start : Addr) (stop : RangeEnd) (s : State), s.tracker.fault = false →
    start.toNat ≤ stop.toNat → stop.toNat ≤ 2 ^ 32 →
    ∃ t answer, exec (.hasStore start stop) s = .next t ∧ t.tracker = s.tracker ∧
      Done s t answer 0 none false ∧
      (StoreOverlaps s.tracker start stop → answer = 1) ∧ (¬ StoreOverlaps s.tracker start stop → answer = 0)

/-- R152 (the reading is D11, C2): DO_LOAD stalls 0, 5 or 7 cycles and then enters `base_latency` for the
destination, whose old entry must have expired by then. -/
def Obligations.DoLoadCompletes : Prop :=
  ∀ (start : Addr) (stop : RangeEnd) (reg : RegIx) (n : Count) (s : State) (extra : Nat),
    s.tracker.fault = false → start.toNat ≤ stop.toNat → stop.toNat ≤ 2 ^ 32 → n ≠ 0 →
    LoadExtra s.tracker start stop extra → Room extra s → latency s.tracker reg ≤ extra →
    ∃ t m, exec (.doLoad start stop reg n) s = .next t ∧ Waited extra s.tracker m ∧
      t.tracker = { m with reglat := m.reglat.set reg.toNat n.toNat reg.isLt } ∧
      Done s t 0 extra none false

/-- R153: a DO_LOAD that completes charges exactly 5 cycles when its range overlaps a live store
reservation, plus 2 more when the access is below 4 bytes, and none without overlap. -/
def Obligations.LoadPenaltyLaw : Prop :=
  ∀ (start : Addr) (stop : RangeEnd) (reg : RegIx) (n : Count) (s t : State),
    s.tracker.fault = false → exec (.doLoad start stop reg n) s = .next t → t.tracker.fault = false →
    (StoreOverlaps s.tracker start stop →
      chargedOf t = if stop.toNat - start.toNat < 4 then 5 + 2 else 5) ∧
    (¬ StoreOverlaps s.tracker start stop → chargedOf t = 0)

/-! ## Branch prediction (44_branch.md) -/

/-- R8, R35, R37, R42, R200 (the index functions are the decisions D14, D15, D19): which element of each
table a pc selects, and the block of a pc. -/
def Obligations.TableIndexes : Prop :=
  ∀ (t : Tracker) (pc : Addr),
    bhtAt t pc = t.bht[pc.toNat / 4 % 128]'(Nat.mod_lt _ (by decide)) ∧
    btbAt t pc = t.btb[pc.toNat / 4 % 40]'(Nat.mod_lt _ (by decide)) ∧
    icAt t pc = t.ic[pc.toNat / 32 % 512]'(Nat.mod_lt _ (by decide)) ∧
    (icBlock pc).toNat = pc.toNat / 16384 * 16384

/-- R165 to R168 (D14 to D16, D31): UPDATE_BP answers the prediction made before the update; a
misprediction costs 3 cycles; the BTB takes the target of a mispredicted taken branch; the BHT entry is
trained always. -/
def Obligations.UpdateBranchCompletes : Prop :=
  ∀ (pc newPc : Addr) (taken : Bool) (s : State), s.tracker.fault = false →
    Room (if branchMissed s.tracker pc newPc taken then 3 else 0) s →
    ∃ t m, exec (.updateBp pc newPc taken) s = .next t ∧
      Waited (if branchMissed s.tracker pc newPc taken then 3 else 0) s.tracker m ∧
      t.tracker = { m with
        btb := if taken && branchMissed s.tracker pc newPc taken then
            m.btb.set (pc.toNat / 4 % 40) newPc (Nat.mod_lt _ (by decide)) else m.btb
        bht := m.bht.set (pc.toNat / 4 % 128) (trained (bhtAt s.tracker pc) taken) (Nat.mod_lt _ (by decide)) } ∧
      Done s t (if predictedTaken s.tracker pc then 1 else 0)
        (if branchMissed s.tracker pc newPc taken then 3 else 0) none false

/-- R174 (an inference the spec marks as its own, resting on D16): from a reset entry, two taken
outcomes cost 3 cycles each, and from then on a taken branch to the same target is predicted taken and
costs nothing. -/
def Obligations.BranchConverges : Prop :=
  (∀ (pc target : Addr) (s : State), s.tracker.fault = false → Room 6 s →
    bhtAt s.tracker pc = { history := 0, counters := #v[0, 0] } →
    ∃ t u, exec (.updateBp pc target true) s = .next t ∧ chargedOf t = 3 ∧
      exec (.updateBp pc target true) t = .next u ∧ chargedOf u = 3 ∧
      u.tracker.fault = false ∧ Converged pc target u.tracker) ∧
  (∀ (pc target : Addr) (s : State), s.tracker.fault = false → Converged pc target s.tracker →
    ∃ t r, exec (.updateBp pc target true) s = .next t ∧ t.ports.resp = some r ∧
      r.data = 1 ∧ r.charged = 0 ∧ t.tracker.totalCycles = s.tracker.totalCycles ∧
      t.tracker.fault = false ∧ Converged pc target t.tracker)

/-- R169: DO_JUMP charges 3 cycles and corrects the BTB when it holds another target, else nothing; the
BHT and the RAS are untouched. -/
def Obligations.DoJumpCompletes : Prop :=
  ∀ (origin target fall : Addr) (s : State), s.tracker.fault = false →
    Room (jumpCharge s.tracker origin target) s →
    ∃ t m, exec (.doJump origin target fall) s = .next t ∧
      Waited (jumpCharge s.tracker origin target) s.tracker m ∧
      t.tracker = { m with btb := m.btb.set (origin.toNat / 4 % 40) target (Nat.mod_lt _ (by decide)) } ∧
      Done s t 0 (jumpCharge s.tracker origin target) none false

/-- R170, R172: DO_CALL does what DO_JUMP does and pushes the return address, dropping the oldest of
two. -/
def Obligations.DoCallCompletes : Prop :=
  ∀ (origin target fall : Addr) (s : State), s.tracker.fault = false →
    Room (jumpCharge s.tracker origin target) s →
    ∃ t m, exec (.doCall origin target fall) s = .next t ∧
      Waited (jumpCharge s.tracker origin target) s.tracker m ∧
      t.tracker = { m with
        btb := m.btb.set (origin.toNat / 4 % 40) target (Nat.mod_lt _ (by decide))
        ras := (if s.tracker.ras.length = 2 then s.tracker.ras.drop 1 else s.tracker.ras) ++ [fall] } ∧
      Done s t 0 (jumpCharge s.tracker origin target) none false

/-- R171 (the reading is D17, C5): DO_RET takes one entry off the RAS; when it is the target nothing else
happens; when it is not, or there was none, DO_JUMP's compare, update and penalty follow. -/
def Obligations.DoRetCompletes : Prop :=
  (∀ (origin target fall : Addr) (older : List Addr) (s : State), s.tracker.fault = false →
    s.tracker.ras = older ++ [target] →
    ∃ t, exec (.doRet origin target fall) s = .next t ∧ t.tracker = { s.tracker with ras := older } ∧
      Done s t 0 0 none false) ∧
  (∀ (origin target fall : Addr) (s : State), s.tracker.fault = false →
    s.tracker.ras.getLast? ≠ some target → Room (jumpCharge s.tracker origin target) s →
    ∃ t m, exec (.doRet origin target fall) s = .next t ∧
      Waited (jumpCharge s.tracker origin target) s.tracker m ∧
      t.tracker = { m with
        btb := m.btb.set (origin.toNat / 4 % 40) target (Nat.mod_lt _ (by decide))
        ras := s.tracker.ras.dropLast } ∧
      Done s t 0 (jumpCharge s.tracker origin target) none false)

/-- R176: with an empty RAS, or a newest entry other than the target, DO_RET is answered as DO_JUMP with
the same operands would have been, faults included, and leaves the same counter and BTB. -/
def Obligations.ReturnFallsBackToJump : Prop :=
  ∀ (origin target fall : Addr) (s t u : State), s.tracker.ras.getLast? ≠ some target →
    exec (.doRet origin target fall) s = .next t → exec (.doJump origin target fall) s = .next u →
    t.ports = u.ports ∧ t.tracker.totalCycles = u.tracker.totalCycles ∧ t.tracker.btb = u.tracker.btb

/-- R172: RAS_PUSH adds the newest entry; with two entries the oldest is dropped. -/
def Obligations.RasPushCompletes : Prop :=
  ∀ (a : Addr) (s : State), s.tracker.fault = false →
    ∃ t, exec (.rasPush a) s = .next t ∧
      t.tracker = { s.tracker with
        ras := (if s.tracker.ras.length = 2 then s.tracker.ras.drop 1 else s.tracker.ras) ++ [a] } ∧
      Done s t 0 0 none false

/-- R173 (the code is D23): RAS_POP answers and removes the newest entry; on an empty stack it raises
RAS_POP_EMPTY, cause 7. -/
def Obligations.RasPopCompletes : Prop :=
  (∀ (a : Addr) (older : List Addr) (s : State), s.tracker.fault = false → s.tracker.ras = older ++ [a] →
    ∃ t, exec .rasPop s = .next t ∧ t.tracker = { s.tracker with ras := older } ∧
      Done s t (a.setWidth 64) 0 none false) ∧
  (∀ s : State, s.tracker.fault = false → s.tracker.ras = [] →
    ∃ t, exec .rasPop s = .next t ∧ Faulted s t 7 false)

/-- R175: after three pushes, on a stack of at most two entries (R39), two pops answer the third and then
the second address; the first push is discarded, with all that was on the stack before it, so that nothing
is left. -/
def Obligations.RasCapacityTwo : Prop :=
  ∀ (a b c : Addr) (s : State), s.tracker.fault = false → s.tracker.ras.length ≤ 2 →
    ∃ s1 s2 s3 s4 s5 r4 r5,
      exec (.rasPush a) s = .next s1 ∧ exec (.rasPush b) s1 = .next s2 ∧ exec (.rasPush c) s2 = .next s3 ∧
      exec .rasPop s3 = .next s4 ∧ s4.ports.resp = some r4 ∧ r4.status = .ok ∧ r4.data = c.setWidth 64 ∧
      exec .rasPop s4 = .next s5 ∧ s5.ports.resp = some r5 ∧ r5.status = .ok ∧ r5.data = b.setWidth 64 ∧
      s5.tracker.ras = []

/-! ## Instruction cache (45_icache.md) -/

/-- R201 (D20), the hit: no cycles, no draw; the way that matched becomes the most recently used; the
answer is the word of the instruction memory with bit 32 set. -/
def Obligations.FetchHitCompletes : Prop :=
  ∀ (pc : Addr) (s : State), s.tracker.fault = false → resident s.tracker pc = true →
    ∃ t, exec (.fetch pc) s = .next t ∧
      t.tracker = { s.tracker with
        ic := s.tracker.ic.set (pc.toNat / 32 % 512)
          ({ icAt s.tracker pc with lruFlag := (icAt s.tracker pc).firstBlock == icBlock pc } : CacheBucket)
          (Nat.mod_lt _ (by decide)) } ∧
      Done s t (BitVec.ofNat 64 (2 ^ 32 + s.ports.imemData.toNat)) 0 (some pc) false

/-- R201 (D20, D21), the miss: a value of the window is drawn and charged, the one the outside gives (that
an input outside the window is read as its nearest end is log entry 4); the victim way takes the block and
the marker flips; the answer is the word of the instruction memory with bit 32 clear. -/
def Obligations.FetchMissCompletes : Prop :=
  ∀ (pc : Addr) (s : State), s.tracker.fault = false → s.build.legal → resident s.tracker pc = false →
    Room (drawFrom s.build.miss s.ports.draw) s →
    ∃ t m p, p = drawFrom s.build.miss s.ports.draw ∧ s.build.miss.lo ≤ p ∧ p ≤ s.build.miss.hi ∧
      (s.build.miss.lo ≤ s.ports.draw → s.ports.draw ≤ s.build.miss.hi → p = s.ports.draw) ∧
      exec (.fetch pc) s = .next t ∧ Aged p s.tracker m ∧
      t.tracker = { m with
        ic := m.ic.set (pc.toNat / 32 % 512)
          (if (icAt s.tracker pc).lruFlag then
            ({ icAt s.tracker pc with secondBlock := icBlock pc, lruFlag := false } : CacheBucket)
           else { icAt s.tracker pc with firstBlock := icBlock pc, lruFlag := true })
          (Nat.mod_lt _ (by decide)) } ∧
      Done s t (BitVec.ofNat 64 s.ports.imemData.toNat) p (some pc) true

/-- R202 (an inference the spec marks as its own): after a FETCH the flag names the way that was not
used: the other way holds the block. -/
def Obligations.FetchMarksLeastRecentlyUsed : Prop :=
  ∀ (pc : Addr) (s t : State), s.tracker.fault = false → exec (.fetch pc) s = .next t →
    t.tracker.fault = false →
    ((icAt t.tracker pc).lruFlag = true → (icAt t.tracker pc).firstBlock = icBlock pc) ∧
    ((icAt t.tracker pc).lruFlag = false → (icAt t.tracker pc).secondBlock = icBlock pc)

/-- R203 (an inference the spec marks as its own): a fetch of a block that is not resident is charged a
value of the miss window; the next fetch of the same bucket and block is charged nothing; and after two
different blocks have been fetched, a third one evicts the first of them and leaves the second. -/
def Obligations.CacheLaw : Prop :=
  (∀ (pc : Addr) (s t : State), Invariant s → s.tracker.fault = false → resident s.tracker pc = false →
    exec (.fetch pc) s = .next t → t.tracker.fault = false →
    s.build.miss.lo ≤ chargedOf t ∧ chargedOf t ≤ s.build.miss.hi) ∧
  (∀ (pc pc' : Addr) (s t : State), s.tracker.fault = false → exec (.fetch pc) s = .next t →
    t.tracker.fault = false → icTag pc' = icTag pc → icBlock pc' = icBlock pc →
    ∃ u, exec (.fetch pc') t = .next u ∧ u.tracker.fault = false ∧ chargedOf u = 0) ∧
  (∀ (p1 p2 p3 : Addr) (s t u v : State), s.tracker.fault = false →
    icTag p2 = icTag p1 → icTag p3 = icTag p1 →
    icBlock p2 ≠ icBlock p1 → icBlock p3 ≠ icBlock p1 → icBlock p3 ≠ icBlock p2 →
    exec (.fetch p1) s = .next t → exec (.fetch p2) t = .next u → exec (.fetch p3) u = .next v →
    v.tracker.fault = false →
    resident v.tracker p1 = false ∧ resident v.tracker p2 = true ∧ resident v.tracker p3 = true)

/-- R204: the word of a FETCH response is what the instruction memory answers for `pc`, which is asked
exactly once, and no other command touches the buckets. -/
def Obligations.FetchReturnsInstructionWord : Prop :=
  (∀ (pc : Addr) (s t : State), s.tracker.fault = false → exec (.fetch pc) s = .next t →
    t.tracker.fault = false →
    t.ports.imemReq = some pc ∧ ∃ r, t.ports.resp = some r ∧ r.data.extractLsb' 0 32 = s.ports.imemData) ∧
  (∀ (i : Instr) (s t : State), (∀ pc, i ≠ .fetch pc) → exec i s = .next t →
    t.tracker.ic = s.tracker.ic ∧ t.ports.imemReq = none)

/-! ## Parameters (00_scope.md section 4) -/

/-- R8 (D3 to D6, D10, D14 to D16, D19): every parameter has the value the table gives it, and the index
functions theirs; and the open windows of this build, free constants (log entry 6), meet the constraints. -/
def Obligations.ParameterValues : Prop :=
  (Config.params.nreg = 32 ∧ Config.params.addrW = 32 ∧ Config.params.countW = 32 ∧ Config.params.cycleW = 64) ∧
  (Config.params.multCost = 6 ∧ Config.params.resultExtra = 1 ∧ Config.params.csrLat = 5) ∧
  (Config.params.fwdPenalty = 5 ∧ Config.params.subwordExtra = 2 ∧ Config.params.wordBytes = 4 ∧
    Config.params.storeExtra = 1) ∧
  (Config.params.mispredict = 3 ∧ Config.params.bhtEntries = 128 ∧ Config.params.bhtCtrBits = 2 ∧
    Config.params.bhtThreshold = 2 ∧ Config.params.bhtHistBits = 1 ∧ Config.params.btbEntries = 40 ∧
    Config.params.rasCap = 2) ∧
  (Config.params.icBuckets = 512 ∧ Config.params.icWays = 2 ∧ Config.params.icBlockBytes = 16384) ∧
  (∀ pc, Config.params.bhtIndex pc = pc / 4 % 128 ∧ Config.params.btbIndex pc = pc / 4 % 40 ∧
    Config.params.icTag pc = pc / 32 % 512) ∧
  (State.reset.build.storeSlots = none ∧ State.reset.build.div = Config.params.div ∧
    State.reset.build.miss = Config.params.miss) ∧
  (1 ≤ Config.params.div.lo ∧ Config.params.div.lo ≤ Config.params.div.hi ∧ Config.params.div.hi < 2 ^ 32 - 1) ∧
  (1 ≤ Config.params.miss.lo ∧ Config.params.miss.lo ≤ Config.params.miss.hi ∧ Config.params.miss.hi < 2 ^ 32)

end
end

