-- ==== Sys2Proof/Laws/Decode.lean ====
section
/-! SUPPORT. The fields of a word, the word of the fields, and which words decode. -/

namespace Sys2Proof

/-- No bit of a field is dropped by `wordOf`. -/
@[simp] theorem fieldsOf_wordOf (f : CmdFields) : fieldsOf (wordOf f) = f := by
  rcases f with ⟨op, reg, rl, fl, bhi, rh, n, a, b, c⟩
  simp only [fieldsOf, wordOf, CmdFields.mk.injEq]
  refine ⟨?_, ?_, ?_, ?_, ?_, ?_, ?_, ?_, ?_, ?_⟩ <;>
    (apply BitVec.eq_of_getLsbD_eq; intro i hi
     simp only [BitVec.getLsbD_extractLsb', BitVec.getLsbD_append, hi, decide_true, Bool.true_and]
     repeat first | rw [if_pos (by omega)] | rw [if_neg (by omega)]
     exact congrArg _ (by omega))

/-- Nor does a word hold anything beyond its fields. -/
@[simp] theorem wordOf_fieldsOf (w : CmdWord) : wordOf (fieldsOf w) = w := by
  simp only [fieldsOf, wordOf]
  apply BitVec.eq_of_getLsbD_eq; intro i hi
  simp only [BitVec.getLsbD_append, BitVec.getLsbD_extractLsb']
  repeat' split
  all_goals
    (rw [decide_eq_true (by omega), Bool.true_and]; exact congrArg _ (by omega))

@[simp] theorem decode_wordOf (f : CmdFields) : decode (wordOf f) = decodeFields f := by
  rw [decode, fieldsOf_wordOf]

theorem rangeEnd_split (stop : RangeEnd) (f : CmdFields) (hb : f.b = stop.extractLsb' 0 32)
    (hh : f.bhi = stop.extractLsb' 32 1) : rangeEnd f = stop := by
  rw [rangeEnd, hb, hh]
  apply BitVec.eq_of_getLsbD_eq; intro i hi
  simp only [BitVec.getLsbD_append, BitVec.getLsbD_extractLsb']
  split <;> (rw [decide_eq_true (by omega), Bool.true_and]; exact congrArg _ (by omega))

end Sys2Proof
end

