-- ==== Sys2Proof/Laws/Params.lean ====
section
/-! SUPPORT. The numbers behind the named parameters, for a proof that needs one. -/

namespace Sys2Proof.Machine

theorem multCost_eq : multCost = 6 := rfl
theorem resultExtra_eq : resultExtra = 1 := rfl
theorem csrLat_eq : csrLat = 5 := rfl
theorem fwdPenalty_eq : fwdPenalty = 5 := rfl
theorem subwordExtra_eq : subwordExtra = 2 := rfl
theorem wordBytes_eq : wordBytes = 4 := rfl
theorem storeExtra_eq : storeExtra = 1 := rfl
theorem mispredict_eq : mispredict = 3 := rfl
theorem bhtThreshold_eq : bhtThreshold = 2 := rfl
theorem rasCap_eq : rasCap = 2 := rfl
theorem cycleLimit_eq : cycleLimit = 2 ^ 64 := rfl

/-! `omega` does not see through the named widths. -/

theorem count_lt (n : Count) : n.toNat < 2 ^ 32 := n.isLt
theorem addr_lt (a : Addr) : a.toNat < 2 ^ 32 := a.isLt
theorem rangeEnd_lt (e : RangeEnd) : e.toNat < 2 ^ 33 := e.isLt
theorem counter_lt (c : BitVec Config.bhtCtrBits) : c.toNat < 4 := c.isLt

theorem icBlock_eq (pc : Addr) : icBlock pc = pc &&& ~~~0x3FFF#32 := rfl

end Sys2Proof.Machine
end

