-- ==== Sys2Proof/Laws/State.lean ====
section
/-! SUPPORT. What each update of the state leaves in each field. -/

namespace Sys2Proof.Machine

/-! `setLatency` -/

@[simp] theorem setLatency_mult (t : Tracker) (i : RegIx) (v : Nat) : (setLatency t i v).mult = t.mult := rfl
@[simp] theorem setLatency_div (t : Tracker) (i : RegIx) (v : Nat) : (setLatency t i v).div = t.div := rfl
@[simp] theorem setLatency_stores (t : Tracker) (i : RegIx) (v : Nat) : (setLatency t i v).stores = t.stores := rfl
@[simp] theorem setLatency_totalCycles (t : Tracker) (i : RegIx) (v : Nat) : (setLatency t i v).totalCycles = t.totalCycles := rfl
@[simp] theorem setLatency_bht (t : Tracker) (i : RegIx) (v : Nat) : (setLatency t i v).bht = t.bht := rfl
@[simp] theorem setLatency_btb (t : Tracker) (i : RegIx) (v : Nat) : (setLatency t i v).btb = t.btb := rfl
@[simp] theorem setLatency_ras (t : Tracker) (i : RegIx) (v : Nat) : (setLatency t i v).ras = t.ras := rfl
@[simp] theorem setLatency_ic (t : Tracker) (i : RegIx) (v : Nat) : (setLatency t i v).ic = t.ic := rfl
@[simp] theorem setLatency_fault (t : Tracker) (i : RegIx) (v : Nat) : (setLatency t i v).fault = t.fault := rfl
@[simp] theorem setLatency_cause (t : Tracker) (i : RegIx) (v : Nat) : (setLatency t i v).cause = t.cause := rfl

/-! `setUnit` -/

@[simp] theorem setUnit_reglat (t : Tracker) (u : FuncUnit) (r : OpReservation) :
    (setUnit t u r).reglat = t.reglat := by cases u <;> rfl
@[simp] theorem setUnit_stores (t : Tracker) (u : FuncUnit) (r : OpReservation) :
    (setUnit t u r).stores = t.stores := by cases u <;> rfl
@[simp] theorem setUnit_totalCycles (t : Tracker) (u : FuncUnit) (r : OpReservation) :
    (setUnit t u r).totalCycles = t.totalCycles := by cases u <;> rfl
@[simp] theorem setUnit_bht (t : Tracker) (u : FuncUnit) (r : OpReservation) :
    (setUnit t u r).bht = t.bht := by cases u <;> rfl
@[simp] theorem setUnit_btb (t : Tracker) (u : FuncUnit) (r : OpReservation) :
    (setUnit t u r).btb = t.btb := by cases u <;> rfl
@[simp] theorem setUnit_ras (t : Tracker) (u : FuncUnit) (r : OpReservation) :
    (setUnit t u r).ras = t.ras := by cases u <;> rfl
@[simp] theorem setUnit_ic (t : Tracker) (u : FuncUnit) (r : OpReservation) :
    (setUnit t u r).ic = t.ic := by cases u <;> rfl
@[simp] theorem setUnit_fault (t : Tracker) (u : FuncUnit) (r : OpReservation) :
    (setUnit t u r).fault = t.fault := by cases u <;> rfl
@[simp] theorem setUnit_cause (t : Tracker) (u : FuncUnit) (r : OpReservation) :
    (setUnit t u r).cause = t.cause := by cases u <;> rfl
@[simp] theorem setUnit_mult_mult (t : Tracker) (r : OpReservation) : (setUnit t .mult r).mult = r := rfl
@[simp] theorem setUnit_mult_div (t : Tracker) (r : OpReservation) : (setUnit t .mult r).div = t.div := rfl
@[simp] theorem setUnit_div_mult (t : Tracker) (r : OpReservation) : (setUnit t .div r).mult = t.mult := rfl
@[simp] theorem setUnit_div_div (t : Tracker) (r : OpReservation) : (setUnit t .div r).div = r := rfl

/-! `setBht` -/

@[simp] theorem setBht_reglat (t : Tracker) (pc : Addr) (e : BhtEntry) : (setBht t pc e).reglat = t.reglat := rfl
@[simp] theorem setBht_mult (t : Tracker) (pc : Addr) (e : BhtEntry) : (setBht t pc e).mult = t.mult := rfl
@[simp] theorem setBht_div (t : Tracker) (pc : Addr) (e : BhtEntry) : (setBht t pc e).div = t.div := rfl
@[simp] theorem setBht_stores (t : Tracker) (pc : Addr) (e : BhtEntry) : (setBht t pc e).stores = t.stores := rfl
@[simp] theorem setBht_totalCycles (t : Tracker) (pc : Addr) (e : BhtEntry) : (setBht t pc e).totalCycles = t.totalCycles := rfl
@[simp] theorem setBht_btb (t : Tracker) (pc : Addr) (e : BhtEntry) : (setBht t pc e).btb = t.btb := rfl
@[simp] theorem setBht_ras (t : Tracker) (pc : Addr) (e : BhtEntry) : (setBht t pc e).ras = t.ras := rfl
@[simp] theorem setBht_ic (t : Tracker) (pc : Addr) (e : BhtEntry) : (setBht t pc e).ic = t.ic := rfl
@[simp] theorem setBht_fault (t : Tracker) (pc : Addr) (e : BhtEntry) : (setBht t pc e).fault = t.fault := rfl
@[simp] theorem setBht_cause (t : Tracker) (pc : Addr) (e : BhtEntry) : (setBht t pc e).cause = t.cause := rfl

/-! `setBtb` -/

@[simp] theorem setBtb_reglat (t : Tracker) (pc : Addr) (e : Addr) : (setBtb t pc e).reglat = t.reglat := rfl
@[simp] theorem setBtb_mult (t : Tracker) (pc : Addr) (e : Addr) : (setBtb t pc e).mult = t.mult := rfl
@[simp] theorem setBtb_div (t : Tracker) (pc : Addr) (e : Addr) : (setBtb t pc e).div = t.div := rfl
@[simp] theorem setBtb_stores (t : Tracker) (pc : Addr) (e : Addr) : (setBtb t pc e).stores = t.stores := rfl
@[simp] theorem setBtb_totalCycles (t : Tracker) (pc : Addr) (e : Addr) : (setBtb t pc e).totalCycles = t.totalCycles := rfl
@[simp] theorem setBtb_bht (t : Tracker) (pc : Addr) (e : Addr) : (setBtb t pc e).bht = t.bht := rfl
@[simp] theorem setBtb_ras (t : Tracker) (pc : Addr) (e : Addr) : (setBtb t pc e).ras = t.ras := rfl
@[simp] theorem setBtb_ic (t : Tracker) (pc : Addr) (e : Addr) : (setBtb t pc e).ic = t.ic := rfl
@[simp] theorem setBtb_fault (t : Tracker) (pc : Addr) (e : Addr) : (setBtb t pc e).fault = t.fault := rfl
@[simp] theorem setBtb_cause (t : Tracker) (pc : Addr) (e : Addr) : (setBtb t pc e).cause = t.cause := rfl

/-! `setIc` -/

@[simp] theorem setIc_reglat (t : Tracker) (pc : Addr) (e : CacheBucket) : (setIc t pc e).reglat = t.reglat := rfl
@[simp] theorem setIc_mult (t : Tracker) (pc : Addr) (e : CacheBucket) : (setIc t pc e).mult = t.mult := rfl
@[simp] theorem setIc_div (t : Tracker) (pc : Addr) (e : CacheBucket) : (setIc t pc e).div = t.div := rfl
@[simp] theorem setIc_stores (t : Tracker) (pc : Addr) (e : CacheBucket) : (setIc t pc e).stores = t.stores := rfl
@[simp] theorem setIc_totalCycles (t : Tracker) (pc : Addr) (e : CacheBucket) : (setIc t pc e).totalCycles = t.totalCycles := rfl
@[simp] theorem setIc_bht (t : Tracker) (pc : Addr) (e : CacheBucket) : (setIc t pc e).bht = t.bht := rfl
@[simp] theorem setIc_btb (t : Tracker) (pc : Addr) (e : CacheBucket) : (setIc t pc e).btb = t.btb := rfl
@[simp] theorem setIc_ras (t : Tracker) (pc : Addr) (e : CacheBucket) : (setIc t pc e).ras = t.ras := rfl
@[simp] theorem setIc_fault (t : Tracker) (pc : Addr) (e : CacheBucket) : (setIc t pc e).fault = t.fault := rfl
@[simp] theorem setIc_cause (t : Tracker) (pc : Addr) (e : CacheBucket) : (setIc t pc e).cause = t.cause := rfl

/-! `rasPush` -/

@[simp] theorem rasPush_reglat (a : Addr) (t : Tracker) : (rasPush a t).reglat = t.reglat := rfl
@[simp] theorem rasPush_mult (a : Addr) (t : Tracker) : (rasPush a t).mult = t.mult := rfl
@[simp] theorem rasPush_div (a : Addr) (t : Tracker) : (rasPush a t).div = t.div := rfl
@[simp] theorem rasPush_stores (a : Addr) (t : Tracker) : (rasPush a t).stores = t.stores := rfl
@[simp] theorem rasPush_totalCycles (a : Addr) (t : Tracker) : (rasPush a t).totalCycles = t.totalCycles := rfl
@[simp] theorem rasPush_bht (a : Addr) (t : Tracker) : (rasPush a t).bht = t.bht := rfl
@[simp] theorem rasPush_btb (a : Addr) (t : Tracker) : (rasPush a t).btb = t.btb := rfl
@[simp] theorem rasPush_ic (a : Addr) (t : Tracker) : (rasPush a t).ic = t.ic := rfl
@[simp] theorem rasPush_fault (a : Addr) (t : Tracker) : (rasPush a t).fault = t.fault := rfl
@[simp] theorem rasPush_cause (a : Addr) (t : Tracker) : (rasPush a t).cause = t.cause := rfl

/-! `bhtUpdate` -/

@[simp] theorem bhtUpdate_reglat (pc : Addr) (taken : Bool) (t : Tracker) : (bhtUpdate pc taken t).reglat = t.reglat := rfl
@[simp] theorem bhtUpdate_mult (pc : Addr) (taken : Bool) (t : Tracker) : (bhtUpdate pc taken t).mult = t.mult := rfl
@[simp] theorem bhtUpdate_div (pc : Addr) (taken : Bool) (t : Tracker) : (bhtUpdate pc taken t).div = t.div := rfl
@[simp] theorem bhtUpdate_stores (pc : Addr) (taken : Bool) (t : Tracker) : (bhtUpdate pc taken t).stores = t.stores := rfl
@[simp] theorem bhtUpdate_totalCycles (pc : Addr) (taken : Bool) (t : Tracker) : (bhtUpdate pc taken t).totalCycles = t.totalCycles := rfl
@[simp] theorem bhtUpdate_btb (pc : Addr) (taken : Bool) (t : Tracker) : (bhtUpdate pc taken t).btb = t.btb := rfl
@[simp] theorem bhtUpdate_ras (pc : Addr) (taken : Bool) (t : Tracker) : (bhtUpdate pc taken t).ras = t.ras := rfl
@[simp] theorem bhtUpdate_ic (pc : Addr) (taken : Bool) (t : Tracker) : (bhtUpdate pc taken t).ic = t.ic := rfl
@[simp] theorem bhtUpdate_fault (pc : Addr) (taken : Bool) (t : Tracker) : (bhtUpdate pc taken t).fault = t.fault := rfl
@[simp] theorem bhtUpdate_cause (pc : Addr) (taken : Bool) (t : Tracker) : (bhtUpdate pc taken t).cause = t.cause := rfl

/-! `enterFault` -/

@[simp] theorem enterFault_reglat (c : Cause) (t : Tracker) : (enterFault c t).reglat = t.reglat := rfl
@[simp] theorem enterFault_mult (c : Cause) (t : Tracker) : (enterFault c t).mult = t.mult := rfl
@[simp] theorem enterFault_div (c : Cause) (t : Tracker) : (enterFault c t).div = t.div := rfl
@[simp] theorem enterFault_stores (c : Cause) (t : Tracker) : (enterFault c t).stores = t.stores := rfl
@[simp] theorem enterFault_totalCycles (c : Cause) (t : Tracker) : (enterFault c t).totalCycles = t.totalCycles := rfl
@[simp] theorem enterFault_bht (c : Cause) (t : Tracker) : (enterFault c t).bht = t.bht := rfl
@[simp] theorem enterFault_btb (c : Cause) (t : Tracker) : (enterFault c t).btb = t.btb := rfl
@[simp] theorem enterFault_ras (c : Cause) (t : Tracker) : (enterFault c t).ras = t.ras := rfl
@[simp] theorem enterFault_ic (c : Cause) (t : Tracker) : (enterFault c t).ic = t.ic := rfl
@[simp] theorem enterFault_fault (c : Cause) (t : Tracker) : (enterFault c t).fault = true := rfl
@[simp] theorem enterFault_cause (c : Cause) (t : Tracker) : (enterFault c t).cause = causeCode c := rfl

/-! `complete` -/

@[simp] theorem complete_tracker (s : State) (t : Tracker) (d : BitVec 64) (q : Option Addr) (b : Bool) :
    (complete s t d q b).tracker = t := rfl
@[simp] theorem complete_build (s : State) (t : Tracker) (d : BitVec 64) (q : Option Addr) (b : Bool) :
    (complete s t d q b).build = s.build := rfl
@[simp] theorem complete_draw (s : State) (t : Tracker) (d : BitVec 64) (q : Option Addr) (b : Bool) :
    (complete s t d q b).ports.draw = s.ports.draw := rfl
@[simp] theorem complete_imemData (s : State) (t : Tracker) (d : BitVec 64) (q : Option Addr) (b : Bool) :
    (complete s t d q b).ports.imemData = s.ports.imemData := rfl
@[simp] theorem complete_resp (s : State) (t : Tracker) (d : BitVec 64) (q : Option Addr) (b : Bool) :
    (complete s t d q b).ports.resp = some (okResponse s.tracker.totalCycles t.totalCycles d) := rfl
@[simp] theorem complete_imemReq (s : State) (t : Tracker) (d : BitVec 64) (q : Option Addr) (b : Bool) :
    (complete s t d q b).ports.imemReq = q := rfl
@[simp] theorem complete_drawSampled (s : State) (t : Tracker) (d : BitVec 64) (q : Option Addr) (b : Bool) :
    (complete s t d q b).ports.drawSampled = b := rfl
@[simp] theorem complete_pending (s : State) (t : Tracker) (d : BitVec 64) (q : Option Addr) (b : Bool) :
    (complete s t d q b).ports.pending = s.ports.pending := rfl

/-! `takeFault` -/

@[simp] theorem takeFault_tracker (s : State) (c : Cause) (b : Bool) :
    (takeFault s c b).tracker = enterFault c s.tracker := rfl
@[simp] theorem takeFault_build (s : State) (c : Cause) (b : Bool) :
    (takeFault s c b).build = s.build := rfl
@[simp] theorem takeFault_draw (s : State) (c : Cause) (b : Bool) :
    (takeFault s c b).ports.draw = s.ports.draw := rfl
@[simp] theorem takeFault_imemData (s : State) (c : Cause) (b : Bool) :
    (takeFault s c b).ports.imemData = s.ports.imemData := rfl
@[simp] theorem takeFault_resp (s : State) (c : Cause) (b : Bool) :
    (takeFault s c b).ports.resp = some (faultResponse (causeCode c)) := rfl
@[simp] theorem takeFault_imemReq (s : State) (c : Cause) (b : Bool) :
    (takeFault s c b).ports.imemReq = none := rfl
@[simp] theorem takeFault_drawSampled (s : State) (c : Cause) (b : Bool) :
    (takeFault s c b).ports.drawSampled = b := rfl
@[simp] theorem takeFault_pending (s : State) (c : Cause) (b : Bool) :
    (takeFault s c b).ports.pending = s.ports.pending := rfl

/-! `answerFaulted` -/

@[simp] theorem answerFaulted_tracker (s : State) :
    (answerFaulted s).tracker = s.tracker := rfl
@[simp] theorem answerFaulted_build (s : State) :
    (answerFaulted s).build = s.build := rfl
@[simp] theorem answerFaulted_draw (s : State) :
    (answerFaulted s).ports.draw = s.ports.draw := rfl
@[simp] theorem answerFaulted_imemData (s : State) :
    (answerFaulted s).ports.imemData = s.ports.imemData := rfl
@[simp] theorem answerFaulted_resp (s : State) :
    (answerFaulted s).ports.resp = some (faultResponse s.tracker.cause) := rfl
@[simp] theorem answerFaulted_imemReq (s : State) :
    (answerFaulted s).ports.imemReq = none := rfl
@[simp] theorem answerFaulted_drawSampled (s : State) :
    (answerFaulted s).ports.drawSampled = false := rfl
@[simp] theorem answerFaulted_pending (s : State) :
    (answerFaulted s).ports.pending = s.ports.pending := rfl

/-! `takeReset` -/

@[simp] theorem takeReset_tracker (s : State) :
    (takeReset s).tracker = Tracker.reset := rfl
@[simp] theorem takeReset_build (s : State) :
    (takeReset s).build = s.build := rfl
@[simp] theorem takeReset_draw (s : State) :
    (takeReset s).ports.draw = s.ports.draw := rfl
@[simp] theorem takeReset_imemData (s : State) :
    (takeReset s).ports.imemData = s.ports.imemData := rfl
@[simp] theorem takeReset_resp (s : State) :
    (takeReset s).ports.resp = none := rfl
@[simp] theorem takeReset_imemReq (s : State) :
    (takeReset s).ports.imemReq = none := rfl
@[simp] theorem takeReset_drawSampled (s : State) :
    (takeReset s).ports.drawSampled = false := rfl
@[simp] theorem takeReset_pending (s : State) :
    (takeReset s).ports.pending = s.ports.pending := rfl

/-! `idle` -/

@[simp] theorem idle_tracker (s : State) :
    (idle s).tracker = s.tracker := rfl
@[simp] theorem idle_build (s : State) :
    (idle s).build = s.build := rfl
@[simp] theorem idle_draw (s : State) :
    (idle s).ports.draw = s.ports.draw := rfl
@[simp] theorem idle_imemData (s : State) :
    (idle s).ports.imemData = s.ports.imemData := rfl
@[simp] theorem idle_resp (s : State) :
    (idle s).ports.resp = none := rfl
@[simp] theorem idle_imemReq (s : State) :
    (idle s).ports.imemReq = none := rfl
@[simp] theorem idle_drawSampled (s : State) :
    (idle s).ports.drawSampled = false := rfl
@[simp] theorem idle_pending (s : State) :
    (idle s).ports.pending = s.ports.pending := rfl

/-! `takeEvent` -/

@[simp] theorem takeEvent_tracker (s : State) (r : List PortEvent) :
    (takeEvent s r).tracker = s.tracker := rfl
@[simp] theorem takeEvent_build (s : State) (r : List PortEvent) :
    (takeEvent s r).build = s.build := rfl
@[simp] theorem takeEvent_draw (s : State) (r : List PortEvent) :
    (takeEvent s r).ports.draw = s.ports.draw := rfl
@[simp] theorem takeEvent_imemData (s : State) (r : List PortEvent) :
    (takeEvent s r).ports.imemData = s.ports.imemData := rfl
@[simp] theorem takeEvent_resp (s : State) (r : List PortEvent) :
    (takeEvent s r).ports.resp = s.ports.resp := rfl
@[simp] theorem takeEvent_imemReq (s : State) (r : List PortEvent) :
    (takeEvent s r).ports.imemReq = s.ports.imemReq := rfl
@[simp] theorem takeEvent_drawSampled (s : State) (r : List PortEvent) :
    (takeEvent s r).ports.drawSampled = s.ports.drawSampled := rfl
@[simp] theorem takeEvent_pending (s : State) (r : List PortEvent) :
    (takeEvent s r).ports.pending = r := rfl

/-! `acceptCommand` -/

@[simp] theorem acceptCommand_tracker (s : State) (d : Nat) (m : Word) (r : List PortEvent) :
    (acceptCommand s d m r).tracker = s.tracker := rfl
@[simp] theorem acceptCommand_build (s : State) (d : Nat) (m : Word) (r : List PortEvent) :
    (acceptCommand s d m r).build = s.build := rfl
@[simp] theorem acceptCommand_draw (s : State) (d : Nat) (m : Word) (r : List PortEvent) :
    (acceptCommand s d m r).ports.draw = d := rfl
@[simp] theorem acceptCommand_imemData (s : State) (d : Nat) (m : Word) (r : List PortEvent) :
    (acceptCommand s d m r).ports.imemData = m := rfl
@[simp] theorem acceptCommand_resp (s : State) (d : Nat) (m : Word) (r : List PortEvent) :
    (acceptCommand s d m r).ports.resp = s.ports.resp := rfl
@[simp] theorem acceptCommand_imemReq (s : State) (d : Nat) (m : Word) (r : List PortEvent) :
    (acceptCommand s d m r).ports.imemReq = s.ports.imemReq := rfl
@[simp] theorem acceptCommand_drawSampled (s : State) (d : Nat) (m : Word) (r : List PortEvent) :
    (acceptCommand s d m r).ports.drawSampled = s.ports.drawSampled := rfl
@[simp] theorem acceptCommand_pending (s : State) (d : Nat) (m : Word) (r : List PortEvent) :
    (acceptCommand s d m r).ports.pending = r := rfl

end Sys2Proof.Machine
end

