-- ==== Sys2Proof/Laws/Ops.lean ====
section
/-! SUPPORT. What each shared operation can do, said once. -/

namespace Sys2Proof.Machine

open Sys2Proof.Safety

/-! Reading a table after a write. -/

@[simp] theorem latency_setLatency (t : Tracker) (i j : RegIx) (v : Nat) :
    latency (setLatency t i v) j = if i = j then v else latency t j := by
  simp only [latency, setLatency, Vector.getElem_set, BitVec.toNat_inj]

theorem latency_of_reglat_eq {t t' : Tracker} (h : t'.reglat = t.reglat) (i : RegIx) :
    latency t' i = latency t i := by simp only [latency, h]

theorem reglat_ext {t t' : Tracker} (h : ∀ i, latency t' i = latency t i) : t'.reglat = t.reglat := by
  apply Vector.ext
  intro k hk
  have := h (BitVec.ofNat 5 k)
  simpa only [latency, BitVec.toNat_ofNat, Nat.mod_eq_of_lt (show k < 2 ^ 5 from hk)] using this

@[simp] theorem unitOf_setUnit (t : Tracker) (u : FuncUnit) (r : OpReservation) :
    unitOf (setUnit t u r) u = r := by cases u <;> rfl

@[simp] theorem bhtAt_setBht (t : Tracker) (pc : Addr) (e : BhtEntry) : bhtAt (setBht t pc e) pc = e := by
  simp [bhtAt, setBht]

@[simp] theorem btbAt_setBtb (t : Tracker) (pc : Addr) (a : Addr) : btbAt (setBtb t pc a) pc = a := by
  simp [btbAt, setBtb]

@[simp] theorem icAt_setIc (t : Tracker) (pc : Addr) (e : CacheBucket) : icAt (setIc t pc e) pc = e := by
  simp [icAt, setIc]

theorem bhtAt_congr {t t' : Tracker} (h : t'.bht = t.bht) (pc : Addr) : bhtAt t' pc = bhtAt t pc := by
  simp only [bhtAt, h]

theorem btbAt_congr {t t' : Tracker} (h : t'.btb = t.btb) (pc : Addr) : btbAt t' pc = btbAt t pc := by
  simp only [btbAt, h]

theorem icAt_congr {t t' : Tracker} (h : t'.ic = t.ic) (pc : Addr) : icAt t' pc = icAt t pc := by
  simp only [icAt, h]

/-! Time. -/

theorem getElem_ageLatencies (n : Nat) (v : Vector Nat Config.nreg) (k : Nat) (h : k < Config.nreg) :
    (ageLatencies n v)[k] = v[k] - n := by
  simp [ageLatencies]

theorem ageIfAcquired_eq (u : OpReservation) (n : Nat) : ageIfAcquired u n = .ok (agedUnit n u) := by
  rcases u with ⟨a, r⟩
  cases a
  · rfl
  · by_cases h : r ≤ n <;> simp [ageIfAcquired, age, agedUnit, h, OpReservation.released, Nat.sub_eq_zero_iff_le]

/-- R110 whole: `advance` answers a tracker exactly when the count is positive and the counter has room,
and then it is the aged one. -/
theorem advance_ok_iff (n : Nat) (t t' : Tracker) :
    advance n t = .ok t' ↔ n ≠ 0 ∧ t.totalCycles + n < 2 ^ 64 ∧ Aged n t t' := by
  rw [advance, cycleLimit_eq]
  rw [ageIfAcquired_eq, ageIfAcquired_eq]
  by_cases h0 : n = 0
  · simp [h0]
  by_cases h1 : 2 ^ 64 ≤ t.totalCycles + n
  · simp only [h0, h1, if_true, if_false, Nat.not_lt.mpr h1]; simp
  · simp only [h0, h1, if_false, Except.bind, Except.ok.injEq, ne_eq, not_false_eq_true, true_and,
      Nat.lt_of_not_le h1]
    constructor
    · rintro rfl
      exact ⟨fun i => getElem_ageLatencies n _ _ _, rfl, rfl, rfl, rfl, rfl, rfl, rfl, rfl, rfl, rfl⟩
    · rintro ⟨a1, a2, a3, a4, a5, a6, a7, a8, a9, a10, a11⟩
      have hr : t'.reglat = ageLatencies n t.reglat := by
        refine Vector.ext fun k hk => ?_
        have := a1 (BitVec.ofNat 5 k)
        simp only [latency, BitVec.toNat_ofNat, Nat.mod_eq_of_lt (show k < 2 ^ 5 from hk)] at this
        rw [this, getElem_ageLatencies]
      rcases t' with ⟨⟩
      simp_all [ageStores]

theorem advance_error_iff (n : Nat) (t : Tracker) (c : Cause) :
    advance n t = .error c ↔
      (n = 0 ∧ c = .badCount) ∨ (n ≠ 0 ∧ 2 ^ 64 ≤ t.totalCycles + n ∧ c = .cycleOverflow) := by
  rw [advance, cycleLimit_eq]
  rw [ageIfAcquired_eq, ageIfAcquired_eq]
  by_cases h0 : n = 0
  · simp [h0, eq_comm]
  by_cases h1 : 2 ^ 64 ≤ t.totalCycles + n
  · simp only [h0, h1, if_true, if_false, Except.error.injEq, false_and, false_or, ne_eq,
      not_false_eq_true, true_and, eq_comm]
  · simp only [h0, h1, if_false, Except.bind, reduceCtorEq, false_and, and_false, or_false]

/-- With room, `advance` answers. -/
theorem advance_completes {n : Nat} {t : Tracker} (h0 : n ≠ 0) (h : t.totalCycles + n < 2 ^ 64) :
    ∃ t', advance n t = .ok t' ∧ Aged n t t' := by
  cases ha : advance n t with
  | ok t' => exact ⟨t', rfl, ((advance_ok_iff n t t').mp ha).2.2⟩
  | error c => rcases (advance_error_iff n t c).mp ha with h' | h' <;> omega

theorem stall_eq (n : Nat) (t : Tracker) : stall n t = advance n t := rfl

/-! The frame of a command. -/

/-- Every command answers a next state: frozen, faulted or complete (R223 to R225). -/
theorem runCommand_cases (s : State) (q : Option Addr) (b : Bool) (body : Except Cause (Tracker × BitVec 64)) :
    (s.tracker.fault = true ∧ runCommand s q b body = .next (answerFaulted s)) ∨
    (s.tracker.fault = false ∧ ∃ c, body = .error c ∧ runCommand s q b body = .next (takeFault s c b)) ∨
    (s.tracker.fault = false ∧ ∃ t d, body = .ok (t, d) ∧ runCommand s q b body = .next (complete s t d q b)) := by
  unfold runCommand
  cases hf : s.tracker.fault
  · rcases body with c | ⟨t, d⟩
    · exact .inr (.inl ⟨rfl, c, rfl, rfl⟩)
    · exact .inr (.inr ⟨rfl, t, d, rfl, rfl⟩)
  · exact .inl ⟨rfl, rfl⟩

theorem runCommand_ok {s : State} (hf : s.tracker.fault = false) (q : Option Addr) (b : Bool) (t : Tracker)
    (d : BitVec 64) : runCommand s q b (.ok (t, d)) = .next (complete s t d q b) := by
  simp [runCommand, hf]

theorem runCommand_error {s : State} (hf : s.tracker.fault = false) (q : Option Addr) (b : Bool) (c : Cause) :
    runCommand s q b (.error c) = .next (takeFault s c b) := by
  simp [runCommand, hf]

theorem runCommand_frozen {s : State} (hf : s.tracker.fault = true) (q : Option Addr) (b : Bool)
    (body : Except Cause (Tracker × BitVec 64)) : runCommand s q b body = .next (answerFaulted s) := by
  simp [runCommand, hf]

theorem runQuiet_ok {s : State} (hf : s.tracker.fault = false) (t : Tracker) :
    runQuiet s (.ok t) = .next (complete s t 0 none false) := runCommand_ok hf none false t 0

theorem runQuiet_error {s : State} (hf : s.tracker.fault = false) (c : Cause) :
    runQuiet s (.error c) = .next (takeFault s c false) := runCommand_error hf none false c

theorem complete_done (s : State) (t : Tracker) (d : BitVec 64) (q : Option Addr) (b : Bool) (n : Nat)
    (h : t.totalCycles = s.tracker.totalCycles + n) : Done s (complete s t d q b) d n q b := by
  refine ⟨rfl, ?_⟩
  simp [complete, respond, okResponse, h]

/-- A command whose body answers completes: what it leaves, and what it answers. -/
theorem command_completes {s : State} {q : Option Addr} {b : Bool} {body : Except Cause (Tracker × BitVec 64)}
    {t : Tracker} {d : BitVec 64} {n : Nat} (hf : s.tracker.fault = false) (h : body = .ok (t, d))
    (hn : t.totalCycles = s.tracker.totalCycles + n) :
    ∃ s', runCommand s q b body = .next s' ∧ s'.tracker = t ∧ Done s s' d n q b :=
  ⟨complete s t d q b, by rw [h, runCommand_ok hf], rfl, complete_done s t d q b n hn⟩

theorem quiet_completes {s : State} {body : Except Cause Tracker} {t : Tracker} {n : Nat}
    (hf : s.tracker.fault = false) (h : body = .ok t) (hn : t.totalCycles = s.tracker.totalCycles + n) :
    ∃ s', runQuiet s body = .next s' ∧ s'.tracker = t ∧ Done s s' 0 n none false :=
  command_completes hf (by rw [h]; rfl) hn

/-- A command whose body raises a cause faults with its code. -/
theorem command_faults {s : State} {q : Option Addr} {b : Bool} {body : Except Cause (Tracker × BitVec 64)}
    {c : Cause} (hf : s.tracker.fault = false) (h : body = .error c) :
    ∃ s', runCommand s q b body = .next s' ∧ Faulted s s' (causeCode c) b :=
  ⟨takeFault s c b, by rw [h, runCommand_error hf], rfl, rfl, rfl⟩

theorem quiet_faults {s : State} {body : Except Cause Tracker} {c : Cause} (hf : s.tracker.fault = false)
    (h : body = .error c) : ∃ s', runQuiet s body = .next s' ∧ Faulted s s' (causeCode c) false :=
  command_faults hf (by rw [h]; rfl)

/-- What a command that has not faulted left. -/
theorem command_next {s s' : State} {q : Option Addr} {b : Bool} {body : Except Cause (Tracker × BitVec 64)}
    (hf : s.tracker.fault = false) (h : runCommand s q b body = .next s') (hf' : s'.tracker.fault = false) :
    ∃ t d, body = .ok (t, d) ∧ s' = complete s t d q b := by
  rcases runCommand_cases s q b body with ⟨h1, _⟩ | ⟨_, c, _, h2⟩ | ⟨_, t, d, h1, h2⟩
  · rw [h1] at hf; cases hf
  · rw [h2] at h; cases h; cases hf'
  · rw [h2] at h; cases h; exact ⟨t, d, h1, rfl⟩

theorem quiet_next {s s' : State} {body : Except Cause Tracker}
    (hf : s.tracker.fault = false) (h : runQuiet s body = .next s') (hf' : s'.tracker.fault = false) :
    ∃ t, body = .ok t ∧ s' = complete s t 0 none false := by
  obtain ⟨t, d, h1, h2⟩ := command_next hf h hf'
  cases body with
  | error c => cases h1
  | ok => cases h1; exact ⟨_, rfl, h2⟩

theorem takeFault_faulted (s : State) (c : Cause) (b : Bool) : Faulted s (takeFault s c b) (causeCode c) b :=
  ⟨rfl, rfl, rfl⟩

/-! Reservations and entries. -/

theorem addResultLatency_ok_iff (i : RegIx) (n : Nat) (t t' : Tracker) :
    addResultLatency i n t = .ok t' ↔ n ≠ 0 ∧ latency t i = 0 ∧ t' = setLatency t i n := by
  unfold addResultLatency
  by_cases h0 : n = 0 <;> by_cases h1 : latency t i = 0 <;> simp [h0, h1, eq_comm]

theorem addResultLatency_error_iff (i : RegIx) (n : Nat) (t : Tracker) (c : Cause) :
    addResultLatency i n t = .error c ↔
      (n = 0 ∧ c = .badCount) ∨ (n ≠ 0 ∧ latency t i ≠ 0 ∧ c = .dupRegLatency) := by
  unfold addResultLatency
  by_cases h0 : n = 0 <;> by_cases h1 : latency t i = 0 <;> simp [h0, h1, eq_comm]

theorem unitOf_aged {n : Nat} {t t' : Tracker} (h : Aged n t t') (u : FuncUnit) :
    unitOf t' u = agedUnit n (unitOf t u) := by
  cases u
  · exact h.mult
  · exact h.div

/-- R130: `reserve` waits while the unit is busy and then holds it for `n` cycles. -/
theorem reserve_ok_of {u : FuncUnit} {n : Nat} {t t1 : Tracker} (hn : n ≠ 0)
    (hroom : t.totalCycles + busyFor (unitOf t u) < 2 ^ 64)
    (hpos : (unitOf t u).acquired = true → (unitOf t u).remaining ≠ 0)
    (h1 : Waited (busyFor (unitOf t u)) t t1) :
    reserve u n t = .ok (setUnit t1 u { acquired := true, remaining := n }) := by
  unfold reserve
  cases ha : (unitOf t u).acquired
  · have : t1 = t := by simpa [Waited, busyFor, ha] using h1
    subst this
    simp [hn, Except.bind, acquire, ha]
  · have hr := hpos ha
    have hb : busyFor (unitOf t u) = (unitOf t u).remaining := by simp [busyFor, ha]
    rw [hb] at hroom h1
    have hag : Aged (unitOf t u).remaining t t1 := by simpa [Waited, hr] using h1
    have hst : stall (unitOf t u).remaining t = .ok t1 := (advance_ok_iff _ _ _).mpr ⟨hr, hroom, hag⟩
    have hu : (unitOf t1 u).acquired = false := by
      rw [unitOf_aged hag, agedUnit, ha]; simp
    simp [hn, hst, Except.bind, acquire, hu]

/-! Draws and the build. -/

/-- R6: the value taken lies in the window, whatever the input. -/
theorem drawFrom_mem (w : Config.Window) (h : w.lo ≤ w.hi) (d : Nat) :
    w.lo ≤ drawFrom w d ∧ drawFrom w d ≤ w.hi := by
  unfold drawFrom
  omega

/-- R88: a draw of the window is taken as it is. -/
theorem drawFrom_of_mem {w : Config.Window} {d : Nat} (h1 : w.lo ≤ d) (h2 : d ≤ w.hi) : drawFrom w d = d := by
  unfold drawFrom
  omega

/-- R88: what the hardware's port makes of a level lies in the window. -/
theorem portDraw_mem (w : Config.Window) (h : w.lo ≤ w.hi) (level : BitVec 32) :
    w.lo ≤ portDraw w level ∧ portDraw w level ≤ w.hi := by
  have := Nat.mod_lt level.toNat (show w.hi - w.lo + 1 > 0 by omega)
  unfold portDraw
  omega

/-- R88: the hardware's port makes every value of a window of at most `2^32` values. -/
theorem portDraw_onto (w : Config.Window) (v : Nat) (h1 : w.lo ≤ v) (h2 : v ≤ w.hi) (h3 : w.hi < 2 ^ 32) :
    ∃ level, portDraw w level = v := by
  refine ⟨BitVec.ofNat 32 (v - w.lo), ?_⟩
  unfold portDraw
  rw [BitVec.toNat_ofNat, Nat.mod_eq_of_lt (show v - w.lo < 2 ^ 32 by omega),
    Nat.mod_eq_of_lt (show v - w.lo < w.hi - w.lo + 1 by omega)]
  omega

/-- The free windows satisfy the constraints of R8. -/
theorem build_legal : Config.build.legal := by
  have h : ∀ limit a b : Nat, 2 ≤ limit → 1 ≤ (Config.clampWindow limit a b).lo ∧
      (Config.clampWindow limit a b).lo ≤ (Config.clampWindow limit a b).hi ∧
      (Config.clampWindow limit a b).hi < limit := by
    intro limit a b hl
    have h1 := Nat.mod_lt a (show limit - 1 > 0 by omega)
    have h2 := Nat.mod_lt b (show limit - (a % (limit - 1) + 1) > 0 by omega)
    simp only [Config.clampWindow]
    omega
  exact ⟨h _ _ _ (by norm_num), h _ _ _ (by norm_num)⟩

end Sys2Proof.Machine
end

