-- ==== Sys2Proof/Laws/Exec.lean ====
section
/-! SUPPORT. What a meaning and a step can do, over all commands. -/

namespace Sys2Proof.Machine

open Sys2Proof.Safety

/-- Every meaning is one run of `runCommand`: the ports it uses and the body it runs. -/
theorem exec_eq_runCommand (i : Instr) (s : State) :
    ∃ q b body, exec i s = runCommand s q b body := by
  cases i with
  | rasPush a => exact ⟨none, false, .ok (rasPush a s.tracker, 0), rfl⟩
  | rdCycles => exact ⟨none, false, .ok (s.tracker, BitVec.ofNat 64 s.tracker.totalCycles), rfl⟩
  | _ => exact ⟨_, _, _, rfl⟩

/-- R225 at a command: frozen while `fault` is set. -/
theorem exec_frozen (i : Instr) {s : State} (hf : s.tracker.fault = true) :
    exec i s = .next (answerFaulted s) := by
  obtain ⟨q, b, body, h⟩ := exec_eq_runCommand i s
  rw [h, runCommand_frozen hf]

theorem runWord_frozen (w : CmdWord) {s : State} (hf : s.tracker.fault = true) :
    runWord w s = .next (answerFaulted s) := by
  unfold runWord illegalCommand
  cases decode w with
  | ok i => exact exec_frozen i hf
  | error e => exact runCommand_frozen hf none false (.error .illegalCmd)

/-- The three ways a command ends. -/
theorem exec_cases (i : Instr) (s : State) :
    (s.tracker.fault = true ∧ exec i s = .next (answerFaulted s)) ∨
    (s.tracker.fault = false ∧ ∃ c b, exec i s = .next (takeFault s c b)) ∨
    (s.tracker.fault = false ∧ ∃ t d q b, exec i s = .next (complete s t d q b)) := by
  obtain ⟨q, b, body, h⟩ := exec_eq_runCommand i s
  rw [h]
  rcases runCommand_cases s q b body with h1 | ⟨hf, c, _, h1⟩ | ⟨hf, t, d, _, h1⟩
  · exact .inl h1
  · exact .inr (.inl ⟨hf, c, b, h1⟩)
  · exact .inr (.inr ⟨hf, t, d, q, b, h1⟩)

/-- What a step does with each event. -/
theorem step_cases {s t : State} (h : step s = .next t) :
    (s.ports.pending = [] ∧ t = idle s) ∨
    (∃ rest, s.ports.pending = .rst :: rest ∧ t = takeReset (takeEvent s rest)) ∨
    (∃ w d m rest, s.ports.pending = .command w d m :: rest ∧
      runWord w (acceptCommand s d m rest) = .next t) := by
  unfold step at h
  split at h
  · next hp => exact .inl ⟨hp, by cases h; rfl⟩
  · next rest hp => exact .inr (.inl ⟨rest, hp, by cases h; rfl⟩)
  · next w d m rest hp => exact .inr (.inr ⟨w, d, m, rest, hp, h⟩)

/-- A word's run is a command's, or the fault of an illegal word. -/
theorem runWord_cases (w : CmdWord) (s : State) :
    (∃ i, decode w = .ok i ∧ runWord w s = exec i s) ∨
    (∃ e, decode w = .error e ∧ runWord w s = runCommand s none false (.error .illegalCmd)) := by
  unfold runWord
  cases h : decode w with
  | ok i => exact .inl ⟨i, rfl, rfl⟩
  | error e => exact .inr ⟨e, rfl, rfl⟩

end Sys2Proof.Machine
end

