-- ==== Sys2Proof/Laws/Procedures.lean ====
section
/-! SUPPORT. Each procedure of the spec, said once: what it leaves when it answers, when it answers, and
what it raises. -/

namespace Sys2Proof.Machine

open Sys2Proof.Safety

/-! Waiting. -/

theorem waited_zero {t t' : Tracker} : Waited 0 t t' ↔ t' = t := by simp [Waited]

theorem waited_pos {n : Nat} (h : n ≠ 0) {t t' : Tracker} : Waited n t t' ↔ Aged n t t' := by
  simp [Waited, h]

theorem waited_totalCycles {n : Nat} {t t' : Tracker} (h : Waited n t t') :
    t'.totalCycles = t.totalCycles + n := by
  by_cases hn : n = 0
  · subst hn; rw [waited_zero.mp h]; rfl
  · exact ((waited_pos hn).mp h).totalCycles

theorem waited_latency {n : Nat} {t t' : Tracker} (h : Waited n t t') (i : RegIx) :
    latency t' i = latency t i - n := by
  by_cases hn : n = 0
  · subst hn; rw [waited_zero.mp h]; rfl
  · exact ((waited_pos hn).mp h).reglat i

/-- What waiting never touches (R110 note (e)). -/
theorem waited_frame {n : Nat} {t t' : Tracker} (h : Waited n t t') :
    t'.bht = t.bht ∧ t'.btb = t.btb ∧ t'.ras = t.ras ∧ t'.ic = t.ic ∧ t'.fault = t.fault ∧ t'.cause = t.cause := by
  by_cases hn : n = 0
  · subst hn; rw [waited_zero.mp h]; exact ⟨rfl, rfl, rfl, rfl, rfl, rfl⟩
  · have a := (waited_pos hn).mp h
    exact ⟨a.bht, a.btb, a.ras, a.ic, a.fault, a.cause⟩

theorem agedUnit_zero {u : OpReservation} (h : UnitOk u) : agedUnit 0 u = u := by
  rcases u with ⟨a, r⟩
  cases a
  · rfl
  · have h1 : 1 ≤ r := (h.1 rfl).1
    have : ¬ r ≤ 0 := by omega
    simp [agedUnit, this]

theorem waited_unit {n : Nat} {t t' : Tracker} (h : Waited n t t') (u : FuncUnit) (hu : UnitOk (unitOf t u)) :
    unitOf t' u = agedUnit n (unitOf t u) := by
  by_cases hn : n = 0
  · subst hn; rw [waited_zero.mp h, agedUnit_zero hu]
  · exact unitOf_aged ((waited_pos hn).mp h) u

/-- With room, waiting is possible. -/
theorem waited_exists {n : Nat} {t : Tracker} (h : t.totalCycles + n < 2 ^ 64) : ∃ m, Waited n t m := by
  by_cases hn : n = 0
  · exact ⟨t, by subst hn; exact waited_zero.mpr rfl⟩
  · obtain ⟨m, _, hm⟩ := advance_completes hn h
    exact ⟨m, (waited_pos hn).mpr hm⟩

theorem stall_of_waited {n : Nat} {t m : Tracker} (hn : n ≠ 0) (h : t.totalCycles + n < 2 ^ 64)
    (hm : Waited n t m) : stall n t = .ok m :=
  (advance_ok_iff n t m).mpr ⟨hn, h, (waited_pos hn).mp hm⟩

theorem waited_of_stall {n : Nat} {t m : Tracker} (h : stall n t = .ok m) :
    n ≠ 0 ∧ t.totalCycles + n < 2 ^ 64 ∧ Waited n t m := by
  obtain ⟨h1, h2, h3⟩ := (advance_ok_iff n t m).mp h
  exact ⟨h1, h2, (waited_pos h1).mpr h3⟩

theorem stall_no_room {n : Nat} {t : Tracker} (hn : n ≠ 0) (h : 2 ^ 64 ≤ t.totalCycles + n) :
    stall n t = .error .cycleOverflow :=
  (advance_error_iff n t .cycleOverflow).mpr (.inr ⟨hn, h, rfl⟩)

/-! ACCESS_REG (R120). -/

theorem accessRegister_ok_iff (i : RegIx) (t t' : Tracker) :
    accessRegister i t = .ok t' ↔
      (latency t i ≠ 0 → t.totalCycles + latency t i < 2 ^ 64) ∧ Waited (latency t i) t t' := by
  unfold accessRegister
  by_cases h : latency t i = 0
  · simp [h, waited_zero, eq_comm]
  · rw [if_neg h, stall_eq, advance_ok_iff, waited_pos h]
    tauto

/-! Reservations (R130, R133, R134). -/

theorem reserve_ok {u : FuncUnit} {n : Nat} {t t' : Tracker} (h : reserve u n t = .ok t') :
    n ≠ 0 ∧ ∃ m, Waited (busyFor (unitOf t u)) t m ∧
      t' = setUnit m u { acquired := true, remaining := n } := by
  unfold reserve at h
  by_cases hn : n = 0
  · simp [hn] at h
  refine ⟨hn, ?_⟩
  cases ha : (unitOf t u).acquired
  · simp [hn, ha, Except.bind, acquire] at h
    exact ⟨t, by simp [busyFor, ha, waited_zero], h.symm⟩
  · rw [if_neg hn, ha, if_pos rfl] at h
    cases hs : stall (unitOf t u).remaining t with
    | error c => simp [hs, Except.bind] at h
    | ok m =>
      obtain ⟨hr, _, hw⟩ := waited_of_stall hs
      have hu : (unitOf m u).acquired = false := by
        rw [unitOf_aged ((waited_pos hr).mp hw), agedUnit, ha]; simp
      simp [hs, Except.bind, acquire, hu] at h
      exact ⟨m, by simpa [busyFor, ha] using hw, h.symm⟩

theorem reserve_no_room {u : FuncUnit} {n : Nat} {t : Tracker} (hn : n ≠ 0) (ha : busyFor (unitOf t u) ≠ 0)
    (h : 2 ^ 64 ≤ t.totalCycles + busyFor (unitOf t u)) : reserve u n t = .error .cycleOverflow := by
  have hacq : (unitOf t u).acquired = true := by
    by_contra hc; simp [busyFor, hc] at ha
  simp only [busyFor, hacq, if_true] at ha h
  simp [reserve, hn, hacq, stall_no_room ha h, Except.bind]

/-- On a unit whose reservation is well formed, `reserve` raises nothing but BAD_COUNT and
CYCLE_OVERFLOW (R222). -/
theorem reserve_error {u : FuncUnit} {n : Nat} {t : Tracker} {c : Cause} (hu : UnitOk (unitOf t u))
    (h : reserve u n t = .error c) :
    (n = 0 ∧ c = .badCount) ∨ (n ≠ 0 ∧ c = .cycleOverflow) := by
  by_cases hn : n = 0
  · simp [reserve, hn] at h; exact .inl ⟨hn, h.symm⟩
  · refine .inr ⟨hn, ?_⟩
    by_cases hroom : t.totalCycles + busyFor (unitOf t u) < 2 ^ 64
    · obtain ⟨m, hm⟩ := waited_exists hroom
      rw [reserve_ok_of hn hroom (fun ha => by have := (hu.1 ha).1; omega) hm] at h
      cases h
    · have hb : busyFor (unitOf t u) ≠ 0 ∨ busyFor (unitOf t u) = 0 := by omega
      rcases hb with hb | hb
      · rw [reserve_no_room hn hb (by omega)] at h; cases h; rfl
      · cases ha : (unitOf t u).acquired
        · simp [reserve, hn, ha, Except.bind, acquire] at h
        · have := (hu.1 ha).1; simp [busyFor, ha] at hb; omega

theorem useUnit_ok {u : FuncUnit} {reg : RegIx} {n : Nat} {t t' : Tracker} (h : useUnit u reg n t = .ok t') :
    n ≠ 0 ∧ ∃ m, Waited (busyFor (unitOf t u)) t m ∧ latency m reg = 0 ∧
      t' = setLatency (setUnit m u { acquired := true, remaining := n }) reg (n + 1) := by
  unfold useUnit at h
  cases hr : reserve u n t with
  | error c => simp [hr, Except.bind] at h
  | ok r =>
    obtain ⟨hn, m, hw, rfl⟩ := reserve_ok hr
    rw [hr] at h
    obtain ⟨_, h2, h3⟩ := (addResultLatency_ok_iff _ _ _ _).mp h
    refine ⟨hn, m, hw, ?_, h3⟩
    rwa [latency_of_reglat_eq (setUnit_reglat m u _)] at h2

theorem useUnit_ok_of {u : FuncUnit} {reg : RegIx} {n : Nat} {t m : Tracker} (hn : n ≠ 0)
    (hroom : t.totalCycles + busyFor (unitOf t u) < 2 ^ 64) (hu : UnitOk (unitOf t u))
    (hm : Waited (busyFor (unitOf t u)) t m) (hl : latency t reg ≤ busyFor (unitOf t u)) :
    useUnit u reg n t = .ok (setLatency (setUnit m u { acquired := true, remaining := n }) reg (n + 1)) := by
  unfold useUnit
  rw [reserve_ok_of hn hroom (fun ha => by have := (hu.1 ha).1; omega) hm]
  refine (addResultLatency_ok_iff _ _ _ _).mpr ⟨by rw [resultExtra_eq]; omega, ?_, rfl⟩
  rw [latency_of_reglat_eq (setUnit_reglat m u _), waited_latency hm]
  omega

theorem useUnit_pending {u : FuncUnit} {reg : RegIx} {n : Nat} {t : Tracker} (hn : n ≠ 0)
    (hroom : t.totalCycles + busyFor (unitOf t u) < 2 ^ 64) (hu : UnitOk (unitOf t u))
    (hl : busyFor (unitOf t u) < latency t reg) : useUnit u reg n t = .error .dupRegLatency := by
  obtain ⟨m, hm⟩ := waited_exists hroom
  unfold useUnit
  rw [reserve_ok_of hn hroom (fun ha => by have := (hu.1 ha).1; omega) hm]
  refine (addResultLatency_error_iff _ _ _ _).mpr (.inr ⟨by rw [resultExtra_eq]; omega, ?_, rfl⟩)
  rw [latency_of_reglat_eq (setUnit_reglat m u _), waited_latency hm]
  omega

theorem useUnit_error {u : FuncUnit} {reg : RegIx} {n : Nat} {t : Tracker} {c : Cause} (hu : UnitOk (unitOf t u))
    (hn : n ≠ 0) (h : useUnit u reg n t = .error c) : c = .cycleOverflow ∨ c = .dupRegLatency := by
  unfold useUnit at h
  cases hr : reserve u n t with
  | error c' =>
    rw [hr] at h; cases h
    rcases reserve_error hu hr with h' | h'
    · omega
    · exact .inl h'.2
  | ok r =>
    rw [hr] at h
    rcases (addResultLatency_error_iff _ _ _ _).mp h with h' | h'
    · rw [resultExtra_eq] at h'; omega
    · exact .inr h'.2.2

/-! Stores and loads (R63, R150 to R152). -/

theorem rangesOverlap_iff (r : AddrRange) (start : Addr) (stop : RangeEnd) :
    rangesOverlap r { start := start, stop := stop } = true ↔ SharesByte r start stop := by
  simp only [rangesOverlap, SharesByte, decide_eq_true_eq]
  constructor
  · intro h
    exact ⟨max r.start.toNat start.toNat, by omega, by omega, by omega, by omega⟩
  · rintro ⟨a, h1, h2, h3, h4⟩
    omega

theorem hasStoreReservation_iff (t : Tracker) (start : Addr) (stop : RangeEnd) :
    hasStoreReservation { start := start, stop := stop } t = true ↔ StoreOverlaps t start stop := by
  simp only [hasStoreReservation, StoreOverlaps, List.any_eq_true, rangesOverlap_iff]

theorem rangeOk_iff (start : Addr) (stop : RangeEnd) :
    rangeOk { start := start, stop := stop } = true ↔ start.toNat ≤ stop.toNat ∧ stop.toNat ≤ 2 ^ 32 := decide_eq_true_iff

theorem rangeWf_iff (start : Addr) (stop : RangeEnd) :
    rangeWf start stop = true ↔ start.toNat ≤ stop.toNat ∧ stop.toNat ≤ 2 ^ 32 := decide_eq_true_iff

/-- R152 in numbers. -/
theorem forwardPenalty_eq (r : AddrRange) : forwardPenalty r = if rangeSize r < 4 then 7 else 5 := rfl

/-- The extra stall of a load is one number. -/
theorem loadExtra_iff (t : Tracker) (start : Addr) (stop : RangeEnd) (extra : Nat) :
    LoadExtra t start stop extra ↔
      extra = if hasStoreReservation { start := start, stop := stop } t
        then forwardPenalty { start := start, stop := stop } else 0 := by
  have hi := hasStoreReservation_iff t start stop
  rw [LoadExtra, forwardPenalty_eq, rangeSize]
  cases hb : hasStoreReservation { start := start, stop := stop } t
  · have hn : ¬ StoreOverlaps t start stop := fun h => by rw [hi.mpr h] at hb; cases hb
    simp [hn]
  · have hy := hi.mp hb
    simp only [hy, not_true_eq_false, false_and, true_and, false_or, if_true]
    split <;> omega

theorem forwardPenalty_pos (r : AddrRange) : forwardPenalty r ≠ 0 := by
  rw [forwardPenalty_eq]; split <;> omega

/-- The load up to its entry: it waits for its penalty. -/
theorem loadStall_ok_iff (t m : Tracker) (r : AddrRange) :
    (if hasStoreReservation r t then stall (forwardPenalty r) t else .ok t) = .ok m ↔
      ((if hasStoreReservation r t then forwardPenalty r else 0) ≠ 0 →
        t.totalCycles + (if hasStoreReservation r t then forwardPenalty r else 0) < 2 ^ 64) ∧
      Waited (if hasStoreReservation r t then forwardPenalty r else 0) t m := by
  cases hasStoreReservation r t
  · simp [waited_zero, eq_comm]
  · have := forwardPenalty_pos r
    simp only [if_true, stall_eq, advance_ok_iff, waited_pos this]
    tauto

theorem doLoad_ok {start : Addr} {stop : RangeEnd} {reg : RegIx} {n : Nat} {t t' : Tracker}
    (h : doLoad { start := start, stop := stop } reg n t = .ok t') :
    start.toNat ≤ stop.toNat ∧ stop.toNat ≤ 2 ^ 32 ∧ n ≠ 0 ∧
    ∃ m extra, LoadExtra t start stop extra ∧ Waited extra t m ∧ latency m reg = 0 ∧ t' = setLatency m reg n := by
  unfold doLoad at h
  by_cases hr : rangeOk { start := start, stop := stop } = true
  · rw [if_pos hr] at h
    by_cases hn : n = 0
    · simp [hn] at h
    rw [if_neg hn] at h
    cases hs : (if hasStoreReservation { start := start, stop := stop } t then
        stall (forwardPenalty { start := start, stop := stop }) t else Except.ok t) with
    | error c => simp [hs, Except.bind] at h
    | ok m =>
      rw [hs] at h
      obtain ⟨_, h2, h3⟩ := (addResultLatency_ok_iff _ _ _ _).mp h
      exact ⟨((rangeOk_iff _ _).mp hr).1, ((rangeOk_iff _ _).mp hr).2, hn, m, _,
        (loadExtra_iff _ _ _ _).mpr rfl, ((loadStall_ok_iff _ _ _).mp hs).2, h2, h3⟩
  · simp [hr] at h

/-- DO_LOAD in range, with a positive latency, in terms of its stall. -/
theorem doLoad_eq {start : Addr} {stop : RangeEnd} {reg : RegIx} {n : Nat} {t : Tracker} {extra : Nat}
    (h1 : start.toNat ≤ stop.toNat) (h2 : stop.toNat ≤ 2 ^ 32) (hn : n ≠ 0)
    (he : LoadExtra t start stop extra) :
    doLoad { start := start, stop := stop } reg n t =
      (if extra = 0 then .ok t else stall extra t).bind (addResultLatency reg n) := by
  unfold doLoad
  rw [if_pos ((rangeOk_iff _ _).mpr ⟨h1, h2⟩), if_neg hn]
  have he' := (loadExtra_iff _ _ _ _).mp he
  cases hb : hasStoreReservation { start := start, stop := stop } t
  · rw [hb] at he'; simp at he'; simp [he']
  · rw [hb, if_pos rfl] at he'
    have := forwardPenalty_pos { start := start, stop := stop }
    rw [← he'] at this ⊢
    simp [this]

/-- The wait of a command whose charge has room. -/
theorem wait_of_room {extra : Nat} {t m : Tracker} (h : t.totalCycles + extra < 2 ^ 64) (hm : Waited extra t m) :
    (if extra = 0 then .ok t else stall extra t) = .ok m := by
  by_cases h0 : extra = 0
  · subst h0; simp [waited_zero.mp hm]
  · rw [if_neg h0]; exact stall_of_waited h0 h hm

/-! Branches (R165 to R171). -/

theorem bhtPredict_eq (t : Tracker) (pc : Addr) : bhtPredict t pc = predictedTaken t pc := rfl

theorem trainEntry_eq (e : BhtEntry) (taken : Bool) : trainEntry e taken = trained e taken := by
  have hs : ∀ (b : Bool) (c : BitVec 2), saturate b c =
      if b then BitVec.ofNat 2 (min (c.toNat + 1) 3) else BitVec.ofNat 2 (c.toNat - 1) := by decide
  have hh : ∀ (h : BitVec 1) (b : Bool), shiftHistory h b = BitVec.ofBool b := by decide
  cases taken <;> simp [trainEntry, trained, hs, hh, counterAt]

/-- What UPDATE_BP writes to the BTB before it waits. -/
theorem resolveBranch_eq (pc newPc : Addr) (taken : Bool) (t : Tracker) :
    resolveBranch pc newPc taken t =
      if branchMissed t pc newPc taken then stall mispredict (if taken then setBtb t pc newPc else t)
      else .ok t := by
  unfold resolveBranch branchMissed
  rw [bhtPredict_eq]
  by_cases h : btbAt t pc = newPc <;> cases predictedTaken t pc <;> cases taken <;> simp [h]

theorem doJump_eq (origin target : Addr) (t : Tracker) :
    doJump origin target t =
      if jumpCharge t origin target = 0 then .ok t else stall mispredict (setBtb t origin target) := by
  unfold doJump jumpCharge
  by_cases h : btbAt t origin = target <;> simp [h]

/-- Writing what an element holds changes nothing. -/
theorem setBtb_self {t : Tracker} {pc a : Addr} (h : btbAt t pc = a) : setBtb t pc a = t := by
  subst h
  unfold setBtb btbAt
  rw [Vector.set_getElem_self]

/-- Waiting after a write to the BTB is the write after the wait. -/
theorem waited_setBtb {n : Nat} (hn : n ≠ 0) {t m : Tracker} {pc a : Addr} (h : Waited n (setBtb t pc a) m) :
    ∃ m', Waited n t m' ∧ m = setBtb m' pc a := by
  have a' := (waited_pos hn).mp h
  refine ⟨{ m with btb := t.btb }, (waited_pos hn).mpr ?_, ?_⟩
  · exact ⟨a'.reglat, a'.mult, a'.div, a'.stores, a'.totalCycles, a'.bht, rfl, a'.ras, a'.ic, a'.fault, a'.cause⟩
  · have := a'.btb
    rcases m with ⟨⟩
    simp only [setBtb, Tracker.mk.injEq, true_and, and_true] at this ⊢
    exact this

theorem doJump_ok {origin target : Addr} {t t' : Tracker} (h : doJump origin target t = .ok t') :
    ∃ m, Waited (jumpCharge t origin target) t m ∧ t' = setBtb m origin target := by
  rw [doJump_eq] at h
  by_cases hc : jumpCharge t origin target = 0
  · rw [if_pos hc] at h
    cases h
    refine ⟨t, by rw [hc]; exact waited_zero.mpr rfl, ?_⟩
    rw [setBtb_self]
    by_contra hne; simp [jumpCharge, hne] at hc
  · rw [if_neg hc] at h
    have h3 : jumpCharge t origin target = 3 := by
      unfold jumpCharge at hc ⊢; split at hc <;> simp_all
    rw [h3]
    exact waited_setBtb (by decide) (waited_of_stall h).2.2

theorem doJump_ok_of {origin target : Addr} {t : Tracker}
    (hroom : t.totalCycles + jumpCharge t origin target < 2 ^ 64) : ∃ t', doJump origin target t = .ok t' := by
  rw [doJump_eq]
  by_cases hc : jumpCharge t origin target = 0
  · rw [if_pos hc]; exact ⟨t, rfl⟩
  · rw [if_neg hc]
    have h3 : jumpCharge t origin target = 3 := by
      unfold jumpCharge at hc ⊢; split at hc <;> simp_all
    rw [h3] at hroom
    obtain ⟨m, hm, _⟩ := advance_completes (n := 3) (t := setBtb t origin target) (by decide) hroom
    exact ⟨m, hm⟩

theorem doJump_error {origin target : Addr} {t : Tracker} {c : Cause} (h : doJump origin target t = .error c) :
    c = .cycleOverflow ∧ jumpCharge t origin target = 3 ∧ 2 ^ 64 ≤ t.totalCycles + 3 := by
  rw [doJump_eq] at h
  by_cases hc : jumpCharge t origin target = 0
  · rw [if_pos hc] at h; cases h
  · rw [if_neg hc] at h
    have h3 : jumpCharge t origin target = 3 := by
      unfold jumpCharge at hc ⊢; split at hc <;> simp_all
    rcases (advance_error_iff _ _ _).mp h with h' | ⟨_, h1, h2⟩
    · exact absurd h'.1 (by decide)
    · exact ⟨h2, h3, h1⟩

theorem updateBranchPrediction_ok {pc newPc : Addr} {taken : Bool} {t t' : Tracker}
    (h : updateBranchPrediction pc newPc taken t = .ok t') :
    ∃ m, Waited (if branchMissed t pc newPc taken then 3 else 0) t m ∧
      t' = setBht (if taken && branchMissed t pc newPc taken then setBtb m pc newPc else m) pc
        (trained (bhtAt t pc) taken) := by
  unfold updateBranchPrediction at h
  rw [resolveBranch_eq] at h
  cases hb : branchMissed t pc newPc taken
  · simp only [hb, Bool.false_eq_true, if_false, Except.map, Except.ok.injEq] at h
    refine ⟨t, by simp [waited_zero], ?_⟩
    rw [← h, bhtUpdate, trainEntry_eq]
    simp
  · simp only [hb, if_true] at h
    cases hs : stall mispredict (if taken then setBtb t pc newPc else t) with
    | error c => simp [hs, Except.map] at h
    | ok m =>
      simp only [hs, Except.map, Except.ok.injEq] at h
      have hw := (waited_of_stall hs).2.2
      cases taken
      · refine ⟨m, hw, ?_⟩
        rw [← h, bhtUpdate, trainEntry_eq, bhtAt_congr (waited_frame hw).1]
        simp
      · obtain ⟨m', hm', rfl⟩ := waited_setBtb (by decide) hw
        refine ⟨m', hm', ?_⟩
        rw [← h, bhtUpdate, trainEntry_eq, bhtAt_congr (setBtb_bht m' pc newPc), bhtAt_congr (waited_frame hm').1]
        simp

theorem updateBranchPrediction_ok_of {pc newPc : Addr} {taken : Bool} {t : Tracker}
    (hroom : t.totalCycles + (if branchMissed t pc newPc taken then 3 else 0) < 2 ^ 64) :
    ∃ t', updateBranchPrediction pc newPc taken t = .ok t' := by
  unfold updateBranchPrediction
  rw [resolveBranch_eq]
  cases hb : branchMissed t pc newPc taken
  · exact ⟨_, rfl⟩
  · rw [hb] at hroom
    obtain ⟨m, hm, _⟩ := advance_completes (n := 3) (t := if taken then setBtb t pc newPc else t) (by decide)
      (by cases taken <;> exact hroom)
    rw [if_pos rfl, stall_eq, show mispredict = 3 from rfl, hm]
    exact ⟨_, rfl⟩

theorem updateBranchPrediction_error {pc newPc : Addr} {taken : Bool} {t : Tracker} {c : Cause}
    (h : updateBranchPrediction pc newPc taken t = .error c) : c = .cycleOverflow := by
  unfold updateBranchPrediction at h
  rw [resolveBranch_eq] at h
  cases hb : branchMissed t pc newPc taken
  · simp [hb, Except.map] at h
  · simp only [hb, if_true] at h
    cases hs : stall mispredict (if taken then setBtb t pc newPc else t) with
    | ok m => simp [hs, Except.map] at h
    | error c' =>
      rw [hs] at h; cases h
      rcases (advance_error_iff _ _ _).mp hs with h' | h'
      · exact absurd h'.1 (by decide)
      · exact h'.2.2

theorem rasPop_append {t : Tracker} {older : List Addr} {a : Addr} (h : t.ras = older ++ [a]) :
    rasPop t = .ok (a, { t with ras := older }) := by
  simp [rasPop, h]

theorem doRet_hit {t : Tracker} {origin target : Addr} {older : List Addr} (h : t.ras = older ++ [target]) :
    doRet origin target t = .ok { t with ras := older } := by
  unfold doRet
  rw [if_neg (by simp [h]), rasPop_append h]
  simp [Except.bind]

theorem doRet_miss {t : Tracker} {origin target : Addr} (h : t.ras.getLast? ≠ some target) :
    doRet origin target t = doJump origin target { t with ras := t.ras.dropLast } := by
  unfold doRet
  by_cases h0 : t.ras = []
  · rw [if_pos h0]; rcases t with ⟨⟩; simp at h0; subst h0; rfl
  · rw [if_neg h0]
    have hr : t.ras = t.ras.dropLast ++ [t.ras.getLast h0] := (List.dropLast_concat_getLast h0).symm
    rw [rasPop_append hr]
    rw [List.getLast?_eq_some_getLast h0] at h
    simp only [Except.bind]
    rw [if_neg (fun hc => h (congrArg some hc))]

/-! The instruction cache (R201). -/

theorem icHit_eq (t : Tracker) (pc : Addr) : icHit t pc = resident t pc := by
  unfold icHit resident
  rw [Bool.eq_iff_iff]
  simp

theorem fetchTiming_hit {t : Tracker} {pc : Addr} (h : resident t pc = true) (p : Nat) :
    fetchTiming pc p t = .ok (setIc t pc
      { icAt t pc with lruFlag := (icAt t pc).firstBlock == icBlock pc }) := by
  unfold fetchTiming
  rw [icHit_eq, if_pos h]
  unfold touchBucket
  by_cases hb : (icAt t pc).firstBlock = icBlock pc
  · simp [hb]
  · rw [if_neg hb, beq_eq_false_iff_ne.mpr hb]

theorem fetchTiming_miss_ok {t t' : Tracker} {pc : Addr} (h : resident t pc = false) {p : Nat}
    (hk : fetchTiming pc p t = .ok t') :
    p ≠ 0 ∧ t.totalCycles + p < 2 ^ 64 ∧
    ∃ m, Aged p t m ∧ t' = setIc m pc (fillBucket (icAt t pc) (icBlock pc)) := by
  unfold fetchTiming at hk
  rw [icHit_eq, h, if_neg (by decide)] at hk
  cases hs : stall p t with
  | error c => simp [hs, Except.map] at hk
  | ok m =>
    simp only [hs, Except.map, Except.ok.injEq] at hk
    obtain ⟨h1, h2, h3⟩ := (advance_ok_iff _ _ _).mp hs
    exact ⟨h1, h2, m, h3, hk.symm⟩

theorem fetchTiming_error {t : Tracker} {pc : Addr} {p : Nat} (hp : p ≠ 0) {c : Cause}
    (h : fetchTiming pc p t = .error c) : resident t pc = false ∧ c = .cycleOverflow := by
  unfold fetchTiming at h
  rw [icHit_eq] at h
  cases hr : resident t pc
  · rw [hr, if_neg (by decide)] at h
    cases hs : stall p t with
    | ok m => simp [hs, Except.map] at h
    | error c' =>
      rw [hs] at h; cases h
      rcases (advance_error_iff _ _ _).mp hs with h' | h'
      · exact absurd h'.1 hp
      · exact ⟨rfl, h'.2.2⟩
  · simp [hr] at h

end Sys2Proof.Machine
end

