-- ==== Sys2Proof/Laws/Effects.lean ====
section
/-! SUPPORT. What each command leaves when it completes, and what it raises when it does not: the one
case analysis over all commands that invariants and whole-machine rules start from. -/

namespace Sys2Proof.Machine

open Sys2Proof.Safety

/-- The tracker `t'` a completed command leaves, in terms of waiting and of the writes that follow. -/
def Effect (s : State) (t' : Tracker) : Instr → Prop
  | .advance n => n.toNat ≠ 0 ∧ Waited n.toNat s.tracker t'
  | .stall n => n.toNat ≠ 0 ∧ Waited n.toNat s.tracker t'
  | .accessReg reg => Waited (latency s.tracker reg) s.tracker t'
  | .addLat reg cycles => cycles.toNat ≠ 0 ∧ latency s.tracker reg = 0 ∧ t' = setLatency s.tracker reg cycles.toNat
  | .reserveMult n => n.toNat ≠ 0 ∧ ∃ m, Waited (busyFor s.tracker.mult) s.tracker m ∧
      t' = setUnit m .mult { acquired := true, remaining := n.toNat }
  | .reserveDiv n => n.toNat ≠ 0 ∧ ∃ m, Waited (busyFor s.tracker.div) s.tracker m ∧
      t' = setUnit m .div { acquired := true, remaining := n.toNat }
  | .doMult reg _ _ => ∃ m, Waited (busyFor s.tracker.mult) s.tracker m ∧ latency m reg = 0 ∧
      t' = setLatency (setUnit m .mult { acquired := true, remaining := 6 }) reg 7
  | .doDiv reg _ _ => ∃ m, Waited (busyFor s.tracker.div) s.tracker m ∧ latency m reg = 0 ∧
      t' = setLatency (setUnit m .div { acquired := true, remaining := drawFrom s.build.div s.ports.draw }) reg
        (drawFrom s.build.div s.ports.draw + 1)
  | .doCsr reg => latency s.tracker reg = 0 ∧ t' = setLatency s.tracker reg 5
  | .reserveStore start stop n => start.toNat ≤ stop.toNat ∧ stop.toNat ≤ 2 ^ 32 ∧
      storeSetFull s.build.storeSlots s.tracker = false ∧
      t' = { s.tracker with stores := s.tracker.stores ++
        [{ range := { start := start, stop := stop }, remaining := n.toNat + 1 }] }
  | .hasStore start stop => start.toNat ≤ stop.toNat ∧ stop.toNat ≤ 2 ^ 32 ∧ t' = s.tracker
  | .doLoad start stop reg n => start.toNat ≤ stop.toNat ∧ stop.toNat ≤ 2 ^ 32 ∧ n.toNat ≠ 0 ∧
      ∃ m extra, LoadExtra s.tracker start stop extra ∧ Waited extra s.tracker m ∧ latency m reg = 0 ∧
        t' = setLatency m reg n.toNat
  | .updateBp pc newPc taken => ∃ m, Waited (if branchMissed s.tracker pc newPc taken then 3 else 0) s.tracker m ∧
      t' = setBht (if taken && branchMissed s.tracker pc newPc taken then setBtb m pc newPc else m) pc
        (trained (bhtAt s.tracker pc) taken)
  | .doJump origin target _ => ∃ m, Waited (jumpCharge s.tracker origin target) s.tracker m ∧
      t' = setBtb m origin target
  | .doCall origin target fall => ∃ m, Waited (jumpCharge s.tracker origin target) s.tracker m ∧
      t' = rasPush fall (setBtb m origin target)
  | .doRet origin target _ =>
      (∃ older, s.tracker.ras = older ++ [target] ∧ t' = { s.tracker with ras := older }) ∨
      (s.tracker.ras.getLast? ≠ some target ∧
        ∃ m, Waited (jumpCharge s.tracker origin target) { s.tracker with ras := s.tracker.ras.dropLast } m ∧
          t' = setBtb m origin target)
  | .rasPush a => t' = rasPush a s.tracker
  | .rasPop => ∃ older a, s.tracker.ras = older ++ [a] ∧ t' = { s.tracker with ras := older }
  | .fetch pc =>
      (resident s.tracker pc = true ∧
        t' = setIc s.tracker pc { icAt s.tracker pc with lruFlag := (icAt s.tracker pc).firstBlock == icBlock pc }) ∨
      (resident s.tracker pc = false ∧ drawFrom s.build.miss s.ports.draw ≠ 0 ∧
        ∃ m, Aged (drawFrom s.build.miss s.ports.draw) s.tracker m ∧
          t' = setIc m pc (fillBucket (icAt s.tracker pc) (icBlock pc)))
  | .rdCycles => t' = s.tracker

/-- Both ends of a command, from what its body can answer and raise. -/
theorem command_outcome {s : State} {q : Option Addr} {b : Bool} {body : Except Cause (Tracker × BitVec 64)}
    (hf : s.tracker.fault = false) {E : Tracker → Prop} {R : BitVec 4 → Prop}
    (hok : ∀ t d, body = .ok (t, d) → E t) (herr : ∀ c, body = .error c → Invariant s → R (causeCode c)) :
    (∃ c, runCommand s q b body = .next (takeFault s c b) ∧ (Invariant s → R (causeCode c))) ∨
    (∃ t d, runCommand s q b body = .next (complete s t d q b) ∧ E t) := by
  rcases runCommand_cases s q b body with ⟨h, _⟩ | ⟨_, c, h1, h2⟩ | ⟨_, t, d, h1, h2⟩
  · rw [h] at hf; cases hf
  · exact .inl ⟨c, h2, herr c h1⟩
  · exact .inr ⟨t, d, h2, hok t d h1⟩

theorem quiet_outcome {s : State} {body : Except Cause Tracker}
    (hf : s.tracker.fault = false) {E : Tracker → Prop} {R : BitVec 4 → Prop}
    (hok : ∀ t, body = .ok t → E t) (herr : ∀ c, body = .error c → Invariant s → R (causeCode c)) :
    (∃ c, runQuiet s body = .next (takeFault s c false) ∧ (Invariant s → R (causeCode c))) ∨
    (∃ t d, runQuiet s body = .next (complete s t d none false) ∧ E t) := by
  refine command_outcome hf ?_ ?_
  · intro t d h
    cases body with
    | error c => cases h
    | ok m => cases h; exact hok _ rfl
  · intro c h
    cases body with
    | error c' => cases h; exact herr _ rfl
    | ok m => cases h

/-- What a command asks the instruction memory. -/
def asks : Instr → Option Addr
  | .fetch pc => some pc
  | _ => none

/-- The one case analysis: a command that finds no fault either raises a cause its rules allow, or
completes with its effect. -/
theorem exec_outcome (i : Instr) {s : State} (hf : s.tracker.fault = false) :
    (∃ c, exec i s = .next (takeFault s c (draws s i)) ∧ (Invariant s → mayRaise i (causeCode c))) ∨
    (∃ t d, exec i s = .next (complete s t d (asks i) (draws s i)) ∧ Effect s t i) := by
  have hadv : ∀ n : Nat, ∀ c, advance n s.tracker = .error c → causeCode c = 2 ∨ causeCode c = 9 := by
    intro n c h
    rcases (advance_error_iff _ _ _).mp h with ⟨_, rfl⟩ | ⟨_, _, rfl⟩
    · exact .inl rfl
    · exact .inr rfl
  have hres : ∀ u n c, UnitOk (unitOf s.tracker u) → reserve u n s.tracker = .error c →
      causeCode c = 2 ∨ causeCode c = 9 := by
    intro u n c hu h
    rcases reserve_error hu h with ⟨_, rfl⟩ | ⟨_, rfl⟩
    · exact .inl rfl
    · exact .inr rfl
  have huse : ∀ u reg n c, n ≠ 0 → UnitOk (unitOf s.tracker u) → useUnit u reg n s.tracker = .error c →
      causeCode c = 4 ∨ causeCode c = 9 := by
    intro u reg n c hn hu h
    rcases useUnit_error hu hn h with rfl | rfl
    · exact .inr rfl
    · exact .inl rfl
  cases i with
  | advance n =>
    exact quiet_outcome hf (fun t h => by
      obtain ⟨h1, _, h3⟩ := (advance_ok_iff _ _ _).mp h
      exact ⟨h1, (waited_pos h1).mpr h3⟩) (fun c h _ => hadv _ c h)
  | stall n =>
    exact quiet_outcome hf (fun t h => by
      obtain ⟨h1, _, h3⟩ := waited_of_stall h
      exact ⟨h1, h3⟩) (fun c h _ => hadv _ c h)
  | accessReg reg =>
    refine quiet_outcome hf (fun t h => ((accessRegister_ok_iff _ _ _).mp h).2) (fun c h _ => ?_)
    unfold accessRegister at h
    split at h
    · cases h
    · next h0 =>
      rcases (advance_error_iff _ _ _).mp h with h' | ⟨_, _, rfl⟩
      · exact absurd h'.1 h0
      · rfl
  | addLat reg cycles =>
    refine quiet_outcome hf (fun t h => (addResultLatency_ok_iff _ _ _ _).mp h) (fun c h _ => ?_)
    rcases (addResultLatency_error_iff _ _ _ _).mp h with ⟨_, rfl⟩ | ⟨_, _, rfl⟩
    · exact .inl rfl
    · exact .inr rfl
  | reserveMult n => exact quiet_outcome hf (fun t h => reserve_ok h) (fun c h hi => hres .mult _ c hi.mult h)
  | reserveDiv n => exact quiet_outcome hf (fun t h => reserve_ok h) (fun c h hi => hres .div _ c hi.div h)
  | doMult reg a b =>
    exact quiet_outcome hf (fun t h => (useUnit_ok h).2)
      (fun c h hi => huse .mult _ _ c (by decide) hi.mult h)
  | doDiv reg a b =>
    refine command_outcome hf (fun t d h => ?_) (fun c h hi => ?_)
    · cases hu : useUnit .div reg (drawFrom s.build.div s.ports.draw) s.tracker with
      | error c => rw [hu] at h; cases h
      | ok m => rw [hu] at h; cases h; exact (useUnit_ok hu).2
    · cases hu : useUnit .div reg (drawFrom s.build.div s.ports.draw) s.tracker with
      | ok m => rw [hu] at h; cases h
      | error c' =>
        rw [hu] at h; cases h
        have h1 := drawFrom_mem s.build.div hi.build.1.2.1 s.ports.draw
        have h2 := hi.build.1.1
        exact huse .div _ _ c (by omega) hi.div hu
  | doCsr reg =>
    refine quiet_outcome hf (fun t h => ((addResultLatency_ok_iff _ _ _ _).mp h).2) (fun c h _ => ?_)
    rcases (addResultLatency_error_iff _ _ _ _).mp h with ⟨h0, rfl⟩ | ⟨_, _, rfl⟩
    · cases h0
    · rfl
  | reserveStore start stop n =>
    refine quiet_outcome hf (fun t h => ?_) (fun c h _ => ?_)
    · unfold reserveStore at h
      split at h
      · next hr =>
        obtain ⟨h1, h2⟩ := (rangeOk_iff _ _).mp hr
        split at h
        · cases h
        · next hs => cases h; exact ⟨h1, h2, by simpa using hs, rfl⟩
      · cases h
    · unfold reserveStore at h
      split at h
      · split at h
        · cases h; exact .inr rfl
        · cases h
      · cases h; exact .inl rfl
  | hasStore start stop =>
    refine command_outcome hf (fun t d h => ?_) (fun c h _ => ?_)
    · split at h
      · next hr => cases h; exact ⟨((rangeOk_iff _ _).mp hr).1, ((rangeOk_iff _ _).mp hr).2, rfl⟩
      · cases h
    · split at h <;> cases h
      rfl
  | doLoad start stop reg n =>
    refine quiet_outcome hf (fun t h => doLoad_ok h) (fun c h _ => ?_)
    unfold doLoad at h
    split at h
    · split at h
      · cases h; exact .inl rfl
      · next hn =>
        cases hs : (if hasStoreReservation { start := start, stop := stop } s.tracker then
            stall (forwardPenalty { start := start, stop := stop }) s.tracker else .ok s.tracker) with
        | error c' =>
          rw [hs] at h; cases h
          split at hs
          · rcases (advance_error_iff _ _ _).mp hs with ⟨h0, _⟩ | ⟨_, _, rfl⟩
            · exact absurd h0 (forwardPenalty_pos _)
            · exact .inr (.inr (.inr rfl))
          · cases hs
        | ok m =>
          rw [hs] at h
          rcases (addResultLatency_error_iff _ _ _ _).mp h with ⟨h0, _⟩ | ⟨_, _, rfl⟩
          · exact absurd h0 hn
          · exact .inr (.inr (.inl rfl))
    · cases h; exact .inr (.inl rfl)
  | updateBp pc newPc taken =>
    refine command_outcome hf (fun t d h => ?_) (fun c h _ => ?_)
    · cases hu : updateBranchPrediction pc newPc taken s.tracker with
      | error c => rw [hu] at h; cases h
      | ok m => rw [hu] at h; cases h; exact updateBranchPrediction_ok hu
    · cases hu : updateBranchPrediction pc newPc taken s.tracker with
      | ok m => rw [hu] at h; cases h
      | error c' => rw [hu] at h; cases h; rw [updateBranchPrediction_error hu]; rfl
  | doJump origin target fall =>
    exact quiet_outcome hf (fun t h => doJump_ok h) (fun c h _ => by rw [(doJump_error h).1]; rfl)
  | doCall origin target fall =>
    refine quiet_outcome hf (fun t h => ?_) (fun c h _ => ?_)
    · unfold doCall at h
      cases hj : doJump origin target s.tracker with
      | error c => rw [hj] at h; cases h
      | ok m =>
        rw [hj] at h; cases h
        obtain ⟨w, h1, rfl⟩ := doJump_ok hj
        exact ⟨w, h1, rfl⟩
    · unfold doCall at h
      cases hj : doJump origin target s.tracker with
      | ok m => rw [hj] at h; cases h
      | error c' => rw [hj] at h; cases h; rw [(doJump_error hj).1]; rfl
  | doRet origin target fall =>
    by_cases hr : s.tracker.ras.getLast? = some target
    · obtain ⟨older, ho⟩ := List.getLast?_eq_some_iff.mp hr
      refine quiet_outcome hf (fun t h => ?_) (fun c h _ => ?_)
      · rw [doRet_hit ho] at h; cases h; exact .inl ⟨older, ho, rfl⟩
      · rw [doRet_hit ho] at h; cases h
    · refine quiet_outcome hf (fun t h => ?_) (fun c h _ => ?_)
      · rw [doRet_miss hr] at h
        exact .inr ⟨hr, doJump_ok h⟩
      · rw [doRet_miss hr] at h
        rw [(doJump_error h).1]; rfl
  | rasPush a => exact quiet_outcome (body := .ok (rasPush a s.tracker)) hf (fun t h => by cases h; rfl) (fun c h _ => by cases h)
  | rasPop =>
    refine command_outcome hf (fun t d h => ?_) (fun c h _ => ?_)
    · unfold rasPop at h
      split at h
      · cases h
      · next a ha =>
        obtain ⟨older, ho⟩ := List.getLast?_eq_some_iff.mp ha
        cases h
        exact ⟨older, a, ho, by simp [ho]⟩
    · unfold rasPop at h
      split at h <;> cases h
      rfl
  | fetch pc =>
    simp only [draws, ← icHit_eq]
    refine command_outcome hf (fun t d h => ?_) (fun c h hi => ?_)
    · cases hu : fetchTiming pc (drawFrom s.build.miss s.ports.draw) s.tracker with
      | error c => rw [hu] at h; cases h
      | ok m =>
        rw [hu] at h; cases h
        cases hr : resident s.tracker pc
        · obtain ⟨h1, _, h3⟩ := fetchTiming_miss_ok hr hu
          exact .inr ⟨hr, h1, h3⟩
        · rw [fetchTiming_hit hr] at hu
          cases hu
          exact .inl ⟨hr, rfl⟩
    · cases hu : fetchTiming pc (drawFrom s.build.miss s.ports.draw) s.tracker with
      | ok m => rw [hu] at h; cases h
      | error c' =>
        rw [hu] at h; cases h
        have h1 := drawFrom_mem s.build.miss hi.build.2.2.1 s.ports.draw
        have h2 := hi.build.2.1
        rw [(fetchTiming_error (by omega) hu).2]; rfl
  | rdCycles =>
    exact command_outcome (body := .ok (s.tracker, BitVec.ofNat 64 s.tracker.totalCycles)) hf (fun t d h => by cases h; rfl) (fun c h _ => by cases h)

/-- What waiting and the writes leave alone: a completed command has not touched `fault` and `cause`. -/
theorem effect_status {i : Instr} {s : State} {t : Tracker} (h : Effect s t i) :
    t.fault = s.tracker.fault ∧ t.cause = s.tracker.cause := by
  have w : ∀ {n : Nat} {a b : Tracker}, Waited n a b → b.fault = a.fault ∧ b.cause = a.cause :=
    fun h => ⟨(waited_frame h).2.2.2.2.1, (waited_frame h).2.2.2.2.2⟩
  cases i with
  | advance n => exact w h.2
  | stall n => exact w h.2
  | accessReg reg => exact w h
  | addLat reg cycles => obtain ⟨_, _, rfl⟩ := h; exact ⟨rfl, rfl⟩
  | reserveMult n => obtain ⟨_, m, hm, rfl⟩ := h; have := w hm; exact this
  | reserveDiv n => obtain ⟨_, m, hm, rfl⟩ := h; have := w hm; exact this
  | doMult reg a b => obtain ⟨m, hm, _, rfl⟩ := h; have := w hm; exact this
  | doDiv reg a b => obtain ⟨m, hm, _, rfl⟩ := h; have := w hm; exact this
  | doCsr reg => obtain ⟨_, rfl⟩ := h; exact ⟨rfl, rfl⟩
  | reserveStore start stop n => obtain ⟨_, _, _, rfl⟩ := h; exact ⟨rfl, rfl⟩
  | hasStore start stop => obtain ⟨_, _, rfl⟩ := h; exact ⟨rfl, rfl⟩
  | doLoad start stop reg n => obtain ⟨_, _, _, m, _, _, hm, _, rfl⟩ := h; have := w hm; exact this
  | updateBp pc newPc taken =>
    obtain ⟨m, hm, rfl⟩ := h
    split
    · have := w hm; exact this
    · have := w hm; exact this
  | doJump origin target fall => obtain ⟨m, hm, rfl⟩ := h; have := w hm; exact this
  | doCall origin target fall => obtain ⟨m, hm, rfl⟩ := h; have := w hm; exact this
  | doRet origin target fall =>
    rcases h with ⟨_, _, rfl⟩ | ⟨_, m, hm, rfl⟩
    · exact ⟨rfl, rfl⟩
    · have := w hm; exact this
  | rasPush a => cases h; exact ⟨rfl, rfl⟩
  | rasPop => obtain ⟨_, _, _, rfl⟩ := h; exact ⟨rfl, rfl⟩
  | fetch pc =>
    rcases h with ⟨_, rfl⟩ | ⟨_, _, m, hm, rfl⟩
    · exact ⟨rfl, rfl⟩
    · exact ⟨hm.fault, hm.cause⟩
  | rdCycles => cases h; exact ⟨rfl, rfl⟩

/-- A next state without a fault is the one the effect describes. -/
theorem exec_next {i : Instr} {s s' : State} (hf : s.tracker.fault = false) (h : exec i s = .next s')
    (hf' : s'.tracker.fault = false) :
    Effect s s'.tracker i ∧ ∃ d, s' = complete s s'.tracker d (asks i) (draws s i) := by
  rcases exec_outcome i hf with ⟨c, h1, _⟩ | ⟨t, d, h1, h2⟩
  · rw [h1] at h; cases h; cases hf'
  · rw [h1] at h; cases h; exact ⟨h2, d, rfl⟩

/-- A next state with a fresh fault is that of a cause the command may raise. -/
theorem exec_fault {i : Instr} {s s' : State} (hf : s.tracker.fault = false) (h : exec i s = .next s')
    (hf' : s'.tracker.fault = true) :
    ∃ c, s' = takeFault s c (draws s i) ∧ (Invariant s → mayRaise i (causeCode c)) := by
  rcases exec_outcome i hf with ⟨c, h1, h2⟩ | ⟨t, d, h1, h2⟩
  · rw [h1] at h; cases h; exact ⟨c, rfl, h2⟩
  · rw [h1] at h; cases h
    have := (effect_status h2).1
    simp only [complete_tracker] at hf'
    rw [this, hf] at hf'
    cases hf'

end Sys2Proof.Machine
end

