-- ==== Sys2Proof/Laws/PerInstr.lean ====
section
/-! SUPPORT. Laws made per instruction: `LegalEncoding`, the word written for a command is a legal
command word that carries the command's opcode (30_encoding.md rules R89 to R91). -/

namespace Sys2Proof.Laws.LegalEncoding

/-- The encoded word is legal, and its bits `[7:0]` are the row's opcode. -/
def Statement (i : Instr) : Prop :=
  CmdWord.legal (encode i) = true ∧ (encode i).extractLsb' 0 8 = opcodeOf i

theorem opcode_range (i : Instr) : 1 ≤ (opcodeOf i).toNat ∧ (opcodeOf i).toNat ≤ 0x14 := by
  cases i <;> simp [opcodeOf]

theorem of_fields (i : Instr) (hlo : (encodeFields i).reservedLo = 0) (hhi : (encodeFields i).reservedHi = 0)
    (hop : (encodeFields i).op = opcodeOf i) : Statement i := by
  have hf : fieldsOf (encode i) = encodeFields i := fieldsOf_wordOf _
  have h8 : (encode i).extractLsb' 0 8 = opcodeOf i := (congrArg CmdFields.op hf).trans hop
  have hl : (encode i).extractLsb' 13 3 = 0 := (congrArg CmdFields.reservedLo hf).trans hlo
  have hh : (encode i).extractLsb' 18 14 = 0 := (congrArg CmdFields.reservedHi hf).trans hhi
  refine ⟨?_, h8⟩
  simp only [CmdWord.legal, h8, hl, hh, true_and, decide_eq_true_eq]
  exact opcode_range i

theorem advance (n : Count) : Statement (.advance n) :=
  of_fields _ rfl rfl rfl

theorem stall (n : Count) : Statement (.stall n) :=
  of_fields _ rfl rfl rfl

theorem accessReg (r : RegIx) : Statement (.accessReg r) :=
  of_fields _ rfl rfl rfl

theorem addLat (r : RegIx) (n : Count) : Statement (.addLat r n) :=
  of_fields _ rfl rfl rfl

theorem reserveMult (n : Count) : Statement (.reserveMult n) :=
  of_fields _ rfl rfl rfl

theorem reserveDiv (n : Count) : Statement (.reserveDiv n) :=
  of_fields _ rfl rfl rfl

theorem doMult (r : RegIx) (a b : Word) : Statement (.doMult r a b) :=
  of_fields _ rfl rfl rfl

theorem doDiv (r : RegIx) (a b : Word) : Statement (.doDiv r a b) :=
  of_fields _ rfl rfl rfl

theorem doCsr (r : RegIx) : Statement (.doCsr r) :=
  of_fields _ rfl rfl rfl

theorem reserveStore (p : Addr) (q : RangeEnd) (n : Count) : Statement (.reserveStore p q n) :=
  of_fields _ rfl rfl rfl

theorem hasStore (p : Addr) (q : RangeEnd) : Statement (.hasStore p q) :=
  of_fields _ rfl rfl rfl

theorem doLoad (p : Addr) (q : RangeEnd) (r : RegIx) (n : Count) : Statement (.doLoad p q r n) :=
  of_fields _ rfl rfl rfl

theorem updateBp (p q : Addr) (b : Bool) : Statement (.updateBp p q b) :=
  of_fields _ rfl rfl rfl

theorem doJump (p q r : Addr) : Statement (.doJump p q r) :=
  of_fields _ rfl rfl rfl

theorem doCall (p q r : Addr) : Statement (.doCall p q r) :=
  of_fields _ rfl rfl rfl

theorem doRet (p q r : Addr) : Statement (.doRet p q r) :=
  of_fields _ rfl rfl rfl

theorem rasPush (p : Addr) : Statement (.rasPush p) :=
  of_fields _ rfl rfl rfl

theorem rasPop : Statement (.rasPop) :=
  of_fields _ rfl rfl rfl

theorem fetch (p : Addr) : Statement (.fetch p) :=
  of_fields _ rfl rfl rfl

theorem rdCycles : Statement (.rdCycles) :=
  of_fields _ rfl rfl rfl

end Sys2Proof.Laws.LegalEncoding
end

