-- ==== Sys2Proof/Tests/Slice0.lean ====
section
/-! SUPPORT. Small tests of the model. Expected values come from 95_test_vectors.md (the vector is named at
each test), except where a rule is named instead. Then one witness per obligation that has hypotheses: a
concrete state and operands that meet all of them together. -/

namespace Sys2Proof.Tests

-- One theorem at a time: the tests compute, and a thread for each takes too much memory.
set_option Elab.async false

open Sys2Proof.Machine
open Sys2Proof.Safety

/-! ## Helpers -/

/-- The windows the vectors use. -/
def window : Config.Window := { lo := 1, hi := 40 }

def vectorBuild : Config.Build := { div := window, miss := window, storeSlots := none }

/-- A build with two store slots. -/
def twoSlots : Config.Build := { vectorBuild with storeSlots := some 2 }

/-- Ports with a draw of 20 on them. -/
def ports : Ports :=
  { draw := 20, imemData := 0x11111111, resp := none, imemReq := none, drawSampled := false, pending := [] }

/-- The start of every vector. -/
def fresh : State := { tracker := Tracker.reset, ports := ports, build := vectorBuild }

/-- A fresh tracker with something in flight. -/
def live (reg : RegIx) (lat : Nat) (mult div : OpReservation) (stores : List StoreReservation) (total : Nat) : State :=
  { fresh with tracker :=
      { setLatency Tracker.reset reg lat with mult := mult, div := div, stores := stores, totalCycles := total } }

/-- A unit busy for `n` cycles, and an idle one. -/
def busy (n : Nat) : OpReservation := { acquired := true, remaining := n }
def rest : OpReservation := { acquired := false, remaining := 0 }

/-- The store of the vectors: `[0x100, 0x104)`. -/
def oneStore (n : Nat) : List StoreReservation := [{ range := { start := 0x100, stop := 0x104 }, remaining := n }]

def withRas (l : List Addr) : State := { fresh with tracker := { Tracker.reset with ras := l } }

def frozen : State := { fresh with tracker := enterFault .rasPopEmpty Tracker.reset }

/-- The state after a command or a word, when there is a next one. -/
def next (o : Host.Outcome State Fault Refusal) (s : State) : State :=
  match o with
  | .next t => t
  | .fault _ => s
  | .refused _ => s

/-- `s` after one step that serves the word. -/
def after (w : CmdWord) (s : State) : State :=
  next (step { s with ports := { s.ports with pending := [.command w s.ports.draw s.ports.imemData] } }) s

def okAnswer (charged : BitVec 32) (data : BitVec 64) : Option Response :=
  some { status := .ok, cause := 0, data := data, charged := charged }

def faultAnswer (cause : BitVec 4) : Option Response :=
  some { status := .fault, cause := cause, data := 0, charged := 0 }

/-! ## Well-formedness: an ill-formed term for each check -/

theorem test_wf_advance_zero : (Instr.advance 0).wf = false := by decide
theorem test_wf_stall_zero : (Instr.stall 0).wf = false := by decide
theorem test_wf_add_lat_zero : (Instr.addLat 3 0).wf = false := by decide
theorem test_wf_reserve_mult_zero : (Instr.reserveMult 0).wf = false := by decide
theorem test_wf_reserve_div_zero : (Instr.reserveDiv 0).wf = false := by decide
theorem test_wf_reserve_store_backwards : (Instr.reserveStore 0x104 0x100 1).wf = false := by decide
theorem test_wf_reserve_store_past_end : (Instr.reserveStore 0 0x100000001 1).wf = false := by decide
theorem test_wf_has_store_backwards : (Instr.hasStore 0x104 0x100).wf = false := by decide
theorem test_wf_has_store_past_end : (Instr.hasStore 0 0x100000001).wf = false := by decide
theorem test_wf_load_backwards : (Instr.doLoad 0x104 0x100 7 2).wf = false := by decide
theorem test_wf_load_past_end : (Instr.doLoad 0 0x100000001 7 2).wf = false := by decide
theorem test_wf_load_zero : (Instr.doLoad 0x100 0x104 7 0).wf = false := by decide

theorem test_wf_accepts : (Instr.advance 1).wf ∧ (Instr.hasStore 0 0x100000000).wf ∧
    (Instr.doLoad 0x100 0x100 7 1).wf ∧ (Instr.reserveStore 0xFFFFFFFC 0x100000000 0).wf := by decide

/-- E2: the words that are no commands. -/
theorem test_legal_op_zero : CmdWord.legal 0x00 = false := by decide
theorem test_legal_op_above : CmdWord.legal 0x15 = false ∧ CmdWord.legal 0xFF = false := by decide
theorem test_legal_reserved_low : CmdWord.legal 0x100002001 = false ∧ CmdWord.legal 0x100008001 = false := by decide
theorem test_legal_reserved_high : CmdWord.legal 0x100040001 = false ∧ CmdWord.legal 0x180000001 = false := by decide
theorem test_legal_accepts : CmdWord.legal 0x01 ∧ CmdWord.legal 0x14 ∧ CmdWord.legal 0x31F01 := by decide

/-! ## Decoding: the words of E1, one per opcode -/

theorem test_decode_advance : decode 0x0000000000000000000000000000000100000001 = .ok (.advance 1) := by decide
theorem test_decode_stall : decode 0x000000000000000000000000FFFFFFFF00000002 = .ok (.stall 0xFFFFFFFF) := by decide
theorem test_decode_access_reg : decode 0x0000000000000000000000000000000000001F03 = .ok (.accessReg 31) := by decide
theorem test_decode_add_lat : decode 0x0000000000000000000000000000000700001F04 = .ok (.addLat 31 7) := by decide
theorem test_decode_reserve_mult : decode 0x0000000000000000000000000000000600000005 = .ok (.reserveMult 6) := by decide
theorem test_decode_reserve_div : decode 0x0000000000000000000000000000002100000006 = .ok (.reserveDiv 33) := by decide
theorem test_decode_do_mult :
    decode 0x000000009ABCDEF0123456780000000000000307 = .ok (.doMult 3 0x12345678 0x9ABCDEF0) := by decide
theorem test_decode_do_div : decode 0x0000000000000000000000070000000000001108 = .ok (.doDiv 17 7 0) := by decide
theorem test_decode_do_csr : decode 0x0000000000000000000000000000000000000A09 = .ok (.doCsr 10) := by decide
theorem test_decode_reserve_store :
    decode 0x0000000000000000FFFFFFFC000000020002000A = .ok (.reserveStore 0xFFFFFFFC 0x100000000 2) := by decide
theorem test_decode_has_store :
    decode 0x000000000000000000000000000000000002000B = .ok (.hasStore 0 0x100000000) := by decide
theorem test_decode_do_load :
    decode 0x000000000000100200001000000000030000070C = .ok (.doLoad 0x1000 0x1002 7 3) := by decide
theorem test_decode_update_taken :
    decode 0x000000008000010080000104000000000001000D = .ok (.updateBp 0x80000104 0x80000100 true) := by decide
theorem test_decode_update_not_taken :
    decode 0x000000008000010880000104000000000000000D = .ok (.updateBp 0x80000104 0x80000108 false) := by decide
theorem test_decode_do_jump :
    decode 0x000002040000040000000200000000000000000E = .ok (.doJump 0x200 0x400 0x204) := by decide
theorem test_decode_do_call :
    decode 0x000003040000080000000300000000000000000F = .ok (.doCall 0x300 0x800 0x304) := by decide
theorem test_decode_do_ret :
    decode 0x0000081400000304000008100000000000000010 = .ok (.doRet 0x810 0x304 0x814) := by decide
theorem test_decode_ras_push : decode 0x0000000000000000DEADBEEC0000000000000011 = .ok (.rasPush 0xDEADBEEC) := by decide
theorem test_decode_ras_pop : decode 0x0000000000000000000000000000000000000012 = .ok .rasPop := by decide
theorem test_decode_fetch : decode 0x0000000000000000200000000000000000000013 = .ok (.fetch 0x20000000) := by decide
theorem test_decode_rd_cycles : decode 0x0000000000000000000000000000000000000014 = .ok .rdCycles := by decide

/-- E2. -/
theorem test_decode_all_zero : decode 0 = .error (.undefinedOpcode 0) := by decide
theorem test_decode_op_above : decode 0x100000015 = .error (.undefinedOpcode 0x15) := by decide
theorem test_decode_reserved_13 : decode 0x100002001 = .error .reservedBitSet := by decide
theorem test_decode_reserved_31 : decode 0x180000001 = .error .reservedBitSet := by decide

/-- E3: ignored fields. -/
theorem test_decode_ignores :
    decode 0xFFFFFFFFFFFFFFFFFFFFFFFF0000000300031F01 = .ok (.advance 3) ∧
    decode 0x000000000000000000000000FFFFFFFF00000303 = .ok (.accessReg 3) ∧
    decode 0x000000000000DEAD00000100000000000002000D = .ok (.updateBp 0x100 0xDEAD false) ∧
    decode 0x0000000000000000000000000000000000001F12 = .ok .rasPop := by decide

theorem test_encode_range : encode (.reserveStore 0xFFFFFFFC 0x100000000 2) = 0x0000000000000000FFFFFFFC000000020002000A := by
  decide
theorem test_encode_update : encode (.updateBp 0x80000104 0x80000100 true) = 0x000000008000010080000104000000000001000D := by
  decide

/-- R94, with the numbers of R96's worked example in decimal. -/
theorem test_text :
    commandText (.doLoad 0x1000 0x1002 7 3) = "do_load [4096, 4098), r7, 3" ∧
    commandText (.updateBp 0x100 0x80 false) = "update_branch_prediction 256, 128, not_taken" := by decide +kernel

/-- A table row's word is W0, the other words zero. -/
theorem test_table_word : decodeTableWord 32 0x1F03 = some (.accessReg 31) ∧ decodeTableWord 32 0 = none := by decide

/-- The word placed by `withFetchWord` is the next step's: FETCH of a table row asks for address 0, and
R201 corner case (C3) makes it a hit. -/
theorem test_fetch_word_runs :
    (next (step (State.reset.withFetchWord 32 0x13)) State.reset).ports.imemReq = some 0 := by decide +kernel

theorem test_fetch_word_first :
    (next (step (State.reset.withFetchWord 32 0x11)) State.reset).tracker.ras = [0] := by decide +kernel

/-! ## One step of each command -/

/-- T1 row 6: `advance 1` with the divider at 1, a store at 1 and r2 at 2. -/
theorem test_advance_expires :
    let s := after 0x100000001 (live 2 2 rest (busy 1) (oneStore 1) 3)
    latency s.tracker 2 = 1 ∧ s.tracker.div = rest ∧ s.tracker.stores = [] ∧ s.tracker.totalCycles = 4 := by
  decide +kernel

/-- T4: one cycle beyond `2^64 - 1`. -/
theorem test_advance_overflow :
    let s := after 0x100000001 (live 0 0 rest rest [] 18446744073709551615)
    s.ports.resp = faultAnswer 9 ∧ s.tracker.totalCycles = 18446744073709551615 := by decide +kernel

/-- S1 row 2; T2. -/
theorem test_stall : (after 0x400000002 (live 0 0 rest rest [] 3)).tracker.totalCycles = 7 ∧
    (after 0x2 fresh).ports.resp = faultAnswer 2 := by decide +kernel

/-- L1 row 6: `access_register r3` at 4. -/
theorem test_access_reg :
    let s := after 0x303 (live 3 4 rest rest [] 2)
    s.ports.resp = okAnswer 4 0 ∧ latency s.tracker 3 = 0 ∧ s.tracker.totalCycles = 6 := by decide +kernel

/-- S2 row 2. -/
theorem test_add_lat_duplicate :
    let s := after 0x200000904 (live 9 4 rest rest [] 0)
    s.ports.resp = faultAnswer 4 ∧ latency s.tracker 9 = 4 := by decide +kernel

/-- L3: index 0 is an ordinary index. -/
theorem test_add_lat_index_zero : latency (after 0x100000004 fresh).tracker 0 = 1 := by decide +kernel

/-- S3 rows 3 and 5. -/
theorem test_reserve_mult_waits :
    let s := after 0x600000005 (live 0 0 (busy 4) rest [] 2)
    s.ports.resp = okAnswer 4 0 ∧ s.tracker.mult = busy 6 := by decide +kernel

theorem test_reserve_div_waits :
    let s := after 0x400000006 (live 0 0 (busy 6) (busy 4) [] 6)
    s.ports.resp = okAnswer 4 0 ∧ s.tracker.div = busy 4 ∧ s.tracker.mult = busy 2 := by decide +kernel

/-- UN1 row 3. -/
theorem test_do_mult :
    let s := after 0x00000000FFFFFFFFFFFFFFFF0000000000000407 (live 3 6 (busy 5) rest [] 1)
    s.ports.resp = okAnswer 5 0 ∧ latency s.tracker 3 = 1 ∧ latency s.tracker 4 = 7 ∧ s.tracker.mult = busy 6 := by
  decide +kernel

/-- UN2 row 3: the fault keeps the state before the command. -/
theorem test_do_mult_precise :
    let s := after 0x307 (live 3 6 (busy 5) rest [] 1)
    s.ports.resp = faultAnswer 4 ∧ s.tracker.mult = busy 5 ∧ s.tracker.totalCycles = 1 := by decide +kernel

/-- R134 with a draw of 20: an entry of 21. -/
theorem test_do_div :
    let s := after 0x1108 fresh
    s.tracker.div = busy 20 ∧ latency s.tracker 17 = 21 ∧ s.ports.drawSampled = true := by decide +kernel

/-- UN5. -/
theorem test_do_csr : latency (after 0xA09 fresh).tracker 10 = 5 := by decide +kernel

/-- S4 row 1; T3 row 1. -/
theorem test_reserve_store :
    (after 0x000000000000010400000100000000020000000A fresh).tracker.stores = oneStore 3 ∧
    (after 0x000000000000010400000100FFFFFFFF0000000A fresh).tracker.stores = oneStore 4294967296 := by
  decide +kernel

/-- M2: a shared byte overlaps, touching does not. -/
theorem test_has_store :
    (after 0x000000000000010400000103000000000000000B (live 0 0 rest rest (oneStore 3) 0)).ports.resp = okAnswer 0 1 ∧
    (after 0x000000000000010800000104000000000000000B (live 0 0 rest rest (oneStore 3) 0)).ports.resp = okAnswer 0 0 := by
  decide +kernel

/-- M3. -/
theorem test_has_store_past_end :
    (after 0x000000000000000100000000000000000002000B fresh).ports.resp = faultAnswer 3 := by decide +kernel

/-- S4: a word pays 5. -/
theorem test_do_load_word :
    let s := after 0x000000000000010400000100000000020000070C (live 0 0 rest rest (oneStore 3) 0)
    s.ports.resp = okAnswer 5 0 ∧ latency s.tracker 7 = 2 := by decide +kernel

/-- S4b: a half word pays 7. -/
theorem test_do_load_half :
    (after 0x000000000000010400000102000000020000070C (live 0 0 rest rest (oneStore 3) 0)).ports.resp =
      okAnswer 7 0 := by decide +kernel

/-- S5 row 1. -/
theorem test_update_first_taken :
    let s := after 0x000000000000008000000100000000000001000D fresh
    s.ports.resp = okAnswer 3 0 ∧ bhtAt s.tracker 0x100 = { history := 1, counters := #v[0, 1] } ∧
      btbAt s.tracker 0x100 = 0x80 := by decide +kernel

/-- B3: not taken at the saturated entry is mispredicted, and the BTB is not written. -/
theorem test_update_not_taken :
    let trained := setBtb (setBht Tracker.reset 0x100 { history := 1, counters := #v[0, 3] }) 0x100 0x80
    let s := after 0x000000000000010400000100000000000000000D { fresh with tracker := trained }
    s.ports.resp = okAnswer 3 1 ∧ bhtAt s.tracker 0x100 = { history := 0, counters := #v[0, 3] } ∧
      btbAt s.tracker 0x100 = 0x80 := by decide +kernel

/-- S7a, B7. -/
theorem test_do_jump :
    (after 0x000008140000030400000810000000000000000E fresh).ports.resp = okAnswer 3 0 ∧
    (after 0x000000040000000000000000000000000000000E fresh).ports.resp = okAnswer 0 0 := by decide +kernel

/-- B10 row 1, R172. -/
theorem test_do_call :
    let s := after 0x000003040000080000000300000000000000000F (withRas [0xA0, 0xB0])
    s.ports.resp = okAnswer 3 0 ∧ s.tracker.ras = [0xB0, 0x304] ∧ btbAt s.tracker 0x300 = 0x800 := by decide +kernel

/-- S7b: the entry is consumed and `do_jump` runs. -/
theorem test_do_ret_miss :
    let s := after 0x0000081400000304000008100000000000000010 (withRas [0x999])
    s.ports.resp = okAnswer 3 0 ∧ s.tracker.ras = [] ∧ btbAt s.tracker 0x810 = 0x304 := by decide +kernel

/-- R171: the newest entry is the target. -/
theorem test_do_ret_hit :
    let s := after 0x0000081400000304000008100000000000000010 (withRas [0xA0, 0x304])
    s.ports.resp = okAnswer 0 0 ∧ s.tracker.ras = [0xA0] := by decide +kernel

/-- S6 row 3. -/
theorem test_ras_push :
    (after 0x0000000000000000000000C00000000000000011 (withRas [0xA0, 0xB0])).tracker.ras = [0xB0, 0xC0] := by
  decide +kernel

/-- S6 row 4; B9. -/
theorem test_ras_pop :
    (after 0x12 (withRas [0xB0, 0xC0])).ports.resp = okAnswer 0 0xC0 ∧
    (after 0x12 fresh).ports.resp = faultAnswer 7 := by decide +kernel

/-- S8 row 1, with a draw of 20. -/
theorem test_fetch_miss :
    let s := after 0x0000000000000000800000400000000000000013 fresh
    s.ports.resp = okAnswer 20 0x11111111 ∧
      icAt s.tracker 0x80000040 = { firstBlock := 0x80000000, secondBlock := 0, lruFlag := true } := by decide +kernel

/-- I1 row 1: block 0 is resident at reset. -/
theorem test_fetch_block_zero :
    let s := after 0x0000000000000000000000400000000000000013 fresh
    s.ports.resp = okAnswer 0 0x111111111 ∧ s.ports.drawSampled = false ∧ (icAt s.tracker 0x40).lruFlag = true := by
  decide +kernel

/-- S1 row 4; F4: a frozen tracker answers its first cause. -/
theorem test_rd_cycles :
    (after 0x14 (live 0 0 rest rest [] 8)).ports.resp = okAnswer 0 8 ∧
    (after 0x14 frozen).ports.resp = faultAnswer 7 := by decide +kernel

/-- R91, R226: an illegal word freezes the tracker, a reset thaws it. -/
theorem test_illegal_word : (after 0 fresh).ports.resp = faultAnswer 1 := by decide +kernel

theorem test_reset_event :
    (next (step { frozen with ports := { ports with pending := [.rst] } }) frozen).tracker.fault = false := by
  decide +kernel

/-! ## Witnesses

The theorem `witness_<obligation>` shows a state and operands that meet every hypothesis of the obligation
together; one for each clause, at an end of its range where it has one. -/

theorem room_of {n : Nat} {s : State} (h : s.tracker.totalCycles + n < 2 ^ 64) : Room n s := h

theorem witness_StepRunsDecodedCommand :
    ∃ (s : State) (w : CmdWord) (draw : Nat) (m : Word) (later : List PortEvent) (i : Instr),
      s.ports.pending = .command w draw m :: later ∧ decode w = .ok i :=
  ⟨{ fresh with ports := { ports with pending := [.command 0x14 0 0, .rst] } }, 0x14, 0, 0, [.rst], .rdCycles,
    rfl, by decide⟩

theorem witness_IllegalWordRaisesIllegalCmd :
    ∃ (s : State) (w : CmdWord) (draw : Nat) (m : Word) (later : List PortEvent) (e : DecodeError),
      s.tracker.fault = false ∧ s.ports.pending = .command w draw m :: later ∧ decode w = .error e :=
  ⟨{ fresh with ports := { ports with pending := [.command 0 0 0] } }, 0, 0, 0, [], .undefinedOpcode 0,
    rfl, rfl, by decide⟩

theorem witness_FaultFreezesTracker :
    ∃ (s : State) (w : CmdWord) (draw : Nat) (m : Word) (later : List PortEvent),
      s.tracker.fault = true ∧ s.ports.pending = .command w draw m :: later :=
  ⟨{ frozen with ports := { ports with pending := [.command 0x13 0 0] } }, 0x13, 0, 0, [], rfl, rfl⟩

theorem witness_IdleStepHoldsTracker : fresh.ports.pending = [] := rfl

theorem witness_ResetEventRestoresTracker :
    ({ frozen with ports := { ports with pending := [.rst] } } : State).ports.pending = .rst :: [] := rfl

theorem witness_OnlyResetClearsFault :
    ∃ s t : State, s.tracker.fault = true ∧ step s = .next t ∧ t.tracker.fault = false :=
  ⟨{ frozen with ports := { ports with pending := [.rst] } }, _, rfl, rfl, rfl⟩

/-- The invariant at the states `live` builds. -/
theorem live_invariant (reg : RegIx) {lat total : Nat} {mult div : OpReservation} {stores : List StoreReservation}
    (h1 : lat < 2 ^ 32) (h2 : UnitOk mult) (h3 : UnitOk div) (h4 : ∀ r ∈ stores, StoreOk r) (h5 : total < 2 ^ 64) :
    Invariant (live reg lat mult div stores total) := by
  refine ⟨(by decide : vectorBuild.legal), fun i => ?_, h2, h3, h4, nofun, h5, Nat.zero_le 2, fun e he => ?_, fun _ => rfl, nofun⟩
  · show latency (setLatency Tracker.reset reg lat) i < 2 ^ 32
    rw [latency_setLatency]
    split
    · exact h1
    · simp [latency, Tracker.reset]
  · have : e = CacheBucket.reset := by simpa [live, fresh, setLatency, Tracker.reset] using he
    subst this
    exact ⟨rfl, rfl, fun _ => rfl⟩

theorem rest_ok : UnitOk rest := ⟨nofun, fun _ => rfl⟩

theorem busy_ok {n : Nat} (h1 : 1 ≤ n) (h2 : n < 2 ^ 32) : UnitOk (busy n) := ⟨fun _ => ⟨h1, h2⟩, nofun⟩

/-- The end of the ranges the invariant allows: the longest entry, unit and store, the highest counter. -/
theorem witness_StepKeepsInvariant :
    ∃ s t : State, Invariant s ∧ step s = .next t :=
  ⟨live 31 (2 ^ 32 - 1) (busy (2 ^ 32 - 1)) (busy 1)
      [{ range := { start := 0xFFFFFFFF, stop := 0x100000000 }, remaining := 2 ^ 32 }] (2 ^ 64 - 1), _,
    live_invariant 31 (by decide) (busy_ok (by decide) (by decide)) (busy_ok (by decide) (by decide))
      (by intro r hr; obtain rfl := List.mem_singleton.mp hr; exact ⟨by decide, by decide, by decide, by decide⟩)
      (by decide), rfl⟩

theorem witness_NotTakenCountersStayZero :
    ∃ s t : State, NotTakenCountersZero s ∧ step s = .next t := by
  refine ⟨fresh, _, fun e he => ?_, rfl⟩
  have : e = BhtEntry.reset := by simpa [fresh, Tracker.reset] using he
  subst this
  rfl

theorem witness_FaultsArePrecise :
    ∃ (i : Instr) (s t : State), s.tracker.fault = false ∧ exec i s = .next t ∧ t.tracker.fault = true :=
  ⟨.rasPop, fresh, _, rfl, rfl, rfl⟩

theorem fresh_invariant : Invariant fresh :=
  live_invariant 0 (lat := 0) (total := 0) (stores := []) (by decide) rest_ok rest_ok nofun (by decide)

theorem witness_CausesOfEachCommand :
    ∃ (i : Instr) (s t : State), Invariant s ∧ s.tracker.fault = false ∧ exec i s = .next t ∧
      t.tracker.fault = true :=
  ⟨.rasPop, fresh, _, fresh_invariant, rfl, rfl, rfl⟩

theorem witness_CommandsLeaveInputsAlone :
    ∃ (i : Instr) (s t : State), exec i s = .next t := ⟨.rdCycles, fresh, _, rfl⟩

theorem witness_ChargesMoveTheCounter :
    ∃ (i : Instr) (s t : State), Invariant s ∧ s.tracker.fault = false ∧ exec i s = .next t ∧
      t.tracker.fault = false :=
  ⟨.rdCycles, fresh, _, fresh_invariant, rfl, rfl, rfl⟩

/-- The second clause of RunTotalIsSumOfCharges: two commands, one with every ignored field set and other
values on the inputs, one of the largest count; and a third event left. -/
theorem witness_RunTotalIsSumOfCharges :
    let events : List (Count × CmdWord × Nat × Word) :=
      [(1, 0xFFFFFFFFFFFFFFFFFFFFFFFF0000000100031F01, 41, 0x12345678), (0xFFFFFFFF, 0xFFFFFFFF00000001, 0, 0)]
    let s : State := { fresh with ports := { ports with pending :=
      [.command 0xFFFFFFFFFFFFFFFFFFFFFFFF0000000100031F01 41 0x12345678,
        .command 0xFFFFFFFF00000001 0 0, .rst] } }
    s.tracker.fault = false ∧ (∀ n w d m, (n, w, d, m) ∈ events → decode w = .ok (.advance n) ∧ n ≠ 0) ∧
      Room (events.map fun e => e.1.toNat).sum s ∧
      s.ports.pending = events.map (fun e => .command e.2.1 e.2.2.1 e.2.2.2) ++ [.rst] := by
  refine ⟨rfl, fun n w d m h => ?_, room_of (by decide +kernel), rfl⟩
  simp only [List.mem_cons, Prod.mk.injEq, List.not_mem_nil, or_false] at h
  rcases h with ⟨rfl, rfl, rfl, rfl⟩ | ⟨rfl, rfl, rfl, rfl⟩ <;> decide

/-- The third clause: two steps, the second with nothing left to take. -/
theorem witness_RunTotalIsSumOfCharges_run :
    ∃ s t : State, Invariant s ∧ NoReset s ∧ core.run 2 s = .next t := by
  refine ⟨{ fresh with ports := { ports with pending := [.command 0x14 0 0] } }, _, ?_, ?_, rfl⟩
  · exact ⟨fresh_invariant.build, fresh_invariant.reglat, fresh_invariant.mult, fresh_invariant.div,
      fresh_invariant.stores, fresh_invariant.slots, fresh_invariant.totalCycles, fresh_invariant.ras,
      fresh_invariant.ic, fresh_invariant.cause⟩
  · intro h
    cases h with
    | tail _ h => cases h

/-- Ranges at both ends: empty at 0, and up to `2^32`. -/
theorem witness_ZeroCountFaults :
    fresh.tracker.fault = false ∧
    ((0 : Addr).toNat ≤ (0 : RangeEnd).toNat ∧ (0 : RangeEnd).toNat ≤ 2 ^ 32) ∧
    ((0xFFFFFFFF : Addr).toNat ≤ (0x100000000 : RangeEnd).toNat ∧ (0x100000000 : RangeEnd).toNat ≤ 2 ^ 32) ∧
    Instr.stall 0 ∈ ([.advance 0, .stall 0] : List Instr) := ⟨rfl, by decide, by decide, by decide⟩

/-- The least charge that has no room: one cycle at `2^64 - 1`. -/
theorem witness_ChargeWithoutRoomFaults :
    ∃ (i : Instr) (s : State) (c : Nat), Invariant s ∧ s.tracker.fault = false ∧ i.wf = true ∧
      ChargeOf s (drawFrom s.build.miss s.ports.draw) i c ∧ ¬ Room c s :=
  ⟨.advance 1, live 0 0 rest rest [] (2 ^ 64 - 1), 1,
    live_invariant 0 (by decide) rest_ok rest_ok nofun (by decide), rfl, by decide, rfl, (by unfold Room; decide)⟩

/-- A tracker at the given count, with the given draw. -/
def drawAt (draw total : Nat) : State :=
  { live 0 0 rest rest [] total with ports := { ports with draw := draw } }

theorem drawAt_invariant (draw : Nat) {total : Nat} (h : total < 2 ^ 64) : Invariant (drawAt draw total) :=
  have i := live_invariant 0 (lat := 0) (stores := []) (by decide) rest_ok rest_ok nofun h
  ⟨i.build, i.reglat, i.mult, i.div, i.stores, i.slots, i.totalCycles, i.ras, i.ic, i.cause⟩

/-- F3: a missing FETCH that draws 3 at `2^64 - 3`, in a window that begins at 1. -/
theorem witness_ChargeWithoutRoomFaults_fetch :
    let s := drawAt 3 (2 ^ 64 - 3)
    Invariant s ∧ s.tracker.fault = false ∧ (Instr.fetch 0x80000040).wf = true ∧
      ChargeOf s (drawFrom s.build.miss s.ports.draw) (.fetch 0x80000040) 3 ∧ ¬ Room 3 s ∧ Room s.build.miss.lo s := by
  refine ⟨drawAt_invariant 3 (by decide), rfl, rfl, ?_, (by unfold Room; decide +kernel), room_of (by decide +kernel)⟩
  have : resident (drawAt 3 (2 ^ 64 - 3)).tracker 0x80000040 = false := by decide +kernel
  exact (if_neg (by rw [this]; decide)).symm

/-- F3 itself. -/
theorem test_fetch_overflow :
    let s := after 0x0000000000000000800000400000000000000013 (drawAt 3 (2 ^ 64 - 3))
    s.ports.resp = faultAnswer 9 ∧ s.ports.drawSampled = true ∧ s.tracker.totalCycles = 2 ^ 64 - 3 := by
  decide +kernel

/-- The five clauses of PendingDestinationFaults in one state: r7 has 8 cycles left, one more than the
multiply unit and the load's longest stall, and the divide unit is idle. -/
theorem witness_PendingDestinationFaults :
    let s := live 7 8 (busy 7) rest (oneStore 1) 0
    Invariant s ∧ s.tracker.fault = false ∧ ((1 : Count) ≠ 0 ∧ latency s.tracker 7 ≠ 0) ∧
      (busyFor s.tracker.mult < latency s.tracker 7 ∧ Room (busyFor s.tracker.mult) s) ∧
      (busyFor s.tracker.div < latency s.tracker 7 ∧ Room (busyFor s.tracker.div) s) ∧
      (rangeWf 0x102 0x104 = true ∧ LoadExtra s.tracker 0x102 0x104 7 ∧ 7 < latency s.tracker 7 ∧ Room 7 s) :=
  ⟨live_invariant 7 (by decide) (busy_ok (by decide) (by decide)) rest_ok
      (by intro r hr; obtain rfl := List.mem_singleton.mp hr; exact ⟨by decide, by decide, by decide, by decide⟩)
      (by decide),
    rfl, by decide +kernel, ⟨by decide +kernel, room_of (by decide +kernel)⟩,
    ⟨by decide +kernel, room_of (by decide +kernel)⟩,
    by decide, .inr (.inl ⟨⟨_, .head _, 0x102, by decide⟩, by decide, rfl⟩), by decide +kernel,
    room_of (by decide +kernel)⟩

/-- The largest count, and the last cycle the counter can take. -/
theorem witness_AdvanceCompletes :
    (fresh.tracker.fault = false ∧ (0xFFFFFFFF : Count) ≠ 0 ∧ Room (0xFFFFFFFF : Count).toNat fresh) ∧
    (1 : Count) ≠ 0 ∧ Room (1 : Count).toNat (live 0 0 rest rest [] (2 ^ 64 - 2)) :=
  ⟨⟨rfl, by decide, room_of (by decide +kernel)⟩, by decide,
    room_of (by decide +kernel)⟩

theorem witness_StallIsAdvance :
    (fresh.tracker.fault = false ∧ (0xFFFFFFFF : Count) ≠ 0 ∧ Room (0xFFFFFFFF : Count).toNat fresh) ∧
    (1 : Count) ≠ 0 ∧ Room (1 : Count).toNat (live 0 0 rest rest [] (2 ^ 64 - 2)) :=
  witness_AdvanceCompletes

theorem witness_AdvancesCompose :
    ∃ (a b : Count) (s t u : State), a ≠ 0 ∧ b ≠ 0 ∧ a.toNat + b.toNat < 2 ^ 32 ∧ s.tracker.fault = false ∧
      exec (.advance a) s = .next t ∧ exec (.advance b) t = .next u ∧ u.tracker.fault = false :=
  ⟨1, 0xFFFFFFFE, fresh, _, _, by decide, by decide, by decide, rfl, rfl, rfl, rfl⟩

theorem witness_ReadCyclesCompletes : fresh.tracker.fault = false := rfl

theorem witness_AccessRegisterCompletes :
    let s := live 31 4 rest rest [] 0
    s.tracker.fault = false ∧ Room (latency s.tracker 31) s ∧ Room (latency s.tracker 0) s :=
  ⟨rfl, room_of (by decide +kernel), room_of (by decide +kernel)⟩

theorem witness_AddLatencyCompletes :
    fresh.tracker.fault = false ∧ (1 : Count) ≠ 0 ∧ latency fresh.tracker 0 = 0 ∧ latency fresh.tracker 31 = 0 := by
  decide +kernel

/-- The units idle and busy. -/
theorem witness_ReserveMultCompletes :
    (fresh.tracker.fault = false ∧ UnitOk fresh.tracker.mult ∧ (1 : Count) ≠ 0 ∧ Room (busyFor fresh.tracker.mult) fresh) ∧
    (let s := live 0 0 (busy 4) rest [] 0;
      s.tracker.fault = false ∧ UnitOk s.tracker.mult ∧ Room (busyFor s.tracker.mult) s) :=
  ⟨⟨rfl, rest_ok, by decide, room_of (by decide +kernel)⟩, rfl, busy_ok (by decide) (by decide),
    room_of (by decide +kernel)⟩

theorem witness_ReserveDivCompletes :
    (fresh.tracker.fault = false ∧ UnitOk fresh.tracker.div ∧ (1 : Count) ≠ 0 ∧ Room (busyFor fresh.tracker.div) fresh) ∧
    (let s := live 0 0 rest (busy 4) [] 0;
      s.tracker.fault = false ∧ UnitOk s.tracker.div ∧ Room (busyFor s.tracker.div) s) :=
  ⟨⟨rfl, rest_ok, by decide, room_of (by decide +kernel)⟩, rfl, busy_ok (by decide) (by decide),
    room_of (by decide +kernel)⟩

/-- The destination's entry as long as the wait. -/
theorem witness_DoMultCompletes :
    let s := live 3 5 (busy 5) rest [] 0
    s.tracker.fault = false ∧ UnitOk s.tracker.mult ∧ Room (busyFor s.tracker.mult) s ∧
      latency s.tracker 3 ≤ busyFor s.tracker.mult :=
  ⟨rfl, busy_ok (by decide) (by decide), room_of (by decide +kernel), by decide +kernel⟩

theorem witness_DoDivCompletes :
    let s := live 3 5 rest (busy 5) [] 0
    s.tracker.fault = false ∧ s.build.legal ∧ UnitOk s.tracker.div ∧ Room (busyFor s.tracker.div) s ∧
      latency s.tracker 3 ≤ busyFor s.tracker.div ∧ s.build.div.lo ≤ s.ports.draw ∧ s.ports.draw ≤ s.build.div.hi :=
  ⟨rfl, by decide, busy_ok (by decide) (by decide), room_of (by decide +kernel), by decide +kernel, by decide, by decide⟩

/-- The clauses of DrawsCoverTheWindows, at both ends of the window. -/
theorem witness_DrawsCoverTheWindows :
    fresh.tracker.fault = false ∧ 1 ≤ fresh.build.div.lo ∧ 1 ≤ fresh.build.miss.lo ∧ UnitOk fresh.tracker.div ∧
      Room (busyFor fresh.tracker.div) fresh ∧ latency fresh.tracker 17 ≤ busyFor fresh.tracker.div ∧
      (fresh.build.div.lo ≤ 1 ∧ 1 ≤ fresh.build.div.hi) ∧ (fresh.build.div.lo ≤ 40 ∧ 40 ≤ fresh.build.div.hi) ∧
      resident fresh.tracker 0x80000040 = false ∧ Room 1 fresh ∧ Room 40 fresh ∧
      (fresh.build.miss.lo ≤ 1 ∧ 40 ≤ fresh.build.miss.hi) ∧ (window.lo ≤ window.hi ∧ window.hi < 2 ^ 32) :=
  ⟨rfl, by decide, by decide, rest_ok, room_of (by decide +kernel), by decide +kernel, by decide, by decide,
    by decide +kernel, room_of (by decide +kernel), room_of (by decide +kernel), by decide, by decide⟩

theorem witness_DoCsrCompletes : fresh.tracker.fault = false ∧ latency fresh.tracker 10 = 0 := by decide +kernel

/-- UnitBusyUntilDeadline: a command that reserves the busy unit anew, one that lets a cycle pass, and one
that lets the rest of the busy period pass. -/
theorem witness_UnitBusyUntilDeadline :
    let s := live 0 0 (busy 5) rest [] 0
    Invariant s ∧ s.tracker.fault = false ∧ (unitOf s.tracker .mult).acquired = true ∧
      (∃ t, exec (.reserveMult 3) s = .next t ∧ t.tracker.fault = false) ∧
      (∃ t, exec (.advance 4) s = .next t ∧ t.tracker.fault = false) ∧
      (∃ t, exec (.advance 5) s = .next t ∧ t.tracker.fault = false) :=
  ⟨live_invariant 0 (by decide) (busy_ok (by decide) (by decide)) rest_ok nofun (by decide), rfl, rfl,
    ⟨_, rfl, rfl⟩, ⟨_, rfl, rfl⟩, ⟨_, rfl, rfl⟩⟩

/-- The same for the divide unit. -/
theorem witness_UnitBusyUntilDeadline_div :
    let s := live 0 0 rest (busy 5) [] 0
    Invariant s ∧ s.tracker.fault = false ∧ (unitOf s.tracker .div).acquired = true ∧
      ∃ t, exec (.doDiv 1 7 0) s = .next t ∧ t.tracker.fault = false :=
  ⟨live_invariant 0 (by decide) rest_ok (busy_ok (by decide) (by decide)) nofun (by decide), rfl, rfl, ⟨_, rfl, rfl⟩⟩

/-- ReserveStoreCompletes: the unbounded set, and the last of two slots. -/
theorem witness_ReserveStoreCompletes :
    (fresh.tracker.fault = false ∧ (0xFFFFFFFC : Addr).toNat ≤ (0x100000000 : RangeEnd).toNat ∧
      (0x100000000 : RangeEnd).toNat ≤ 2 ^ 32 ∧
      ∀ k, fresh.build.storeSlots = some k → fresh.tracker.stores.length < k) ∧
    (let s : State := { live 0 0 rest rest (oneStore 3) 0 with build := twoSlots };
      ∀ k, s.build.storeSlots = some k → s.tracker.stores.length < k) :=
  ⟨⟨rfl, by decide, by decide, nofun⟩, fun k h => by cases h; decide⟩

/-- BadRangeFaults: the end one below the start, and the end one above `2^32`. -/
theorem witness_BadRangeFaults :
    fresh.tracker.fault = false ∧
    ((0x0FF : RangeEnd).toNat < (0x100 : Addr).toNat ∨ 2 ^ 32 < (0x0FF : RangeEnd).toNat) ∧
    ((0x100000001 : RangeEnd).toNat < (0 : Addr).toNat ∨ 2 ^ 32 < (0x100000001 : RangeEnd).toNat) :=
  ⟨rfl, by decide, by decide⟩

theorem witness_FiniteStoreSetFull :
    let s : State := { live 0 0 rest rest (oneStore 3 ++ oneStore 3) 0 with build := twoSlots }
    s.tracker.fault = false ∧ (0x100 : Addr).toNat ≤ (0x104 : RangeEnd).toNat ∧ (0x104 : RangeEnd).toNat ≤ 2 ^ 32 ∧
      s.build.storeSlots = some 2 ∧ 2 ≤ s.tracker.stores.length := by decide

/-- HasStoreCompletes and LoadPenaltyLaw, both answers: the last byte overlaps, the next one does not. -/
theorem witness_HasStoreCompletes :
    let s := live 0 0 rest rest (oneStore 3) 0
    s.tracker.fault = false ∧ (0x103 : Addr).toNat ≤ (0x104 : RangeEnd).toNat ∧ (0x104 : RangeEnd).toNat ≤ 2 ^ 32 ∧
      StoreOverlaps s.tracker 0x103 0x104 ∧ ¬ StoreOverlaps s.tracker 0x104 0x105 := by
  refine ⟨rfl, by decide, by decide, ⟨_, .head _, 0x103, by decide⟩, ?_⟩
  rintro ⟨r, hr, a, h1, h2, h3, h4⟩
  obtain rfl := List.mem_singleton.mp hr
  have h2 : a < 260 := h2
  have h3 : 260 ≤ a := h3
  omega

/-- DoLoadCompletes, the three stalls: 5 for 4 bytes, 7 for 3 bytes, none without a store. -/
theorem witness_DoLoadCompletes :
    let s := live 7 5 rest rest (oneStore 3) 0
    s.tracker.fault = false ∧ (2 : Count) ≠ 0 ∧
      (LoadExtra s.tracker 0x100 0x104 5 ∧ Room 5 s ∧ latency s.tracker 7 ≤ 5) ∧
      (LoadExtra s.tracker 0x101 0x104 7 ∧ Room 7 s ∧ latency s.tracker 7 ≤ 7) ∧
      LoadExtra fresh.tracker 0x100 0x104 0 ∧ Room 0 fresh ∧ latency fresh.tracker 7 ≤ 0 := by
  refine ⟨rfl, by decide, ⟨.inr (.inr ⟨⟨_, .head _, 0x100, by decide⟩, by decide, rfl⟩),
    room_of (by decide +kernel), by decide +kernel⟩,
    ⟨.inr (.inl ⟨⟨_, .head _, 0x101, by decide⟩, by decide, rfl⟩), room_of (by decide +kernel), by decide +kernel⟩,
    .inl ⟨?_, rfl⟩, room_of (by decide +kernel), by decide +kernel⟩
  rintro ⟨r, hr, _⟩
  cases hr

theorem witness_LoadPenaltyLaw :
    let s := live 0 0 rest rest (oneStore 3) 0
    s.tracker.fault = false ∧
      (∃ t, exec (.doLoad 0x100 0x104 7 2) s = .next t ∧ t.tracker.fault = false) ∧
      (∃ t, exec (.doLoad 0x101 0x104 7 2) s = .next t ∧ t.tracker.fault = false) ∧
      (∃ t, exec (.doLoad 0x104 0x108 7 2) s = .next t ∧ t.tracker.fault = false) :=
  ⟨rfl, ⟨_, rfl, rfl⟩, ⟨_, rfl, rfl⟩, ⟨_, rfl, rfl⟩⟩

/-- UpdateBranchCompletes: a branch that is missed and one that is not. -/
theorem witness_UpdateBranchCompletes :
    fresh.tracker.fault = false ∧
    (branchMissed fresh.tracker 0x100 0x80 true = true ∧ Room 3 fresh) ∧
    (branchMissed fresh.tracker 0x100 0x80 false = false ∧ Room 0 fresh) :=
  ⟨rfl, ⟨by decide +kernel, room_of (by decide +kernel)⟩, by decide +kernel, room_of (by decide +kernel)⟩

/-- Both clauses of BranchConverges: the entry of reset, and a converged one. -/
theorem witness_BranchConverges :
    (fresh.tracker.fault = false ∧ Room 6 fresh ∧ bhtAt fresh.tracker 0x100 = { history := 0, counters := #v[0, 0] }) ∧
    (let t := setBtb (setBht Tracker.reset 0x100 { history := 1, counters := #v[0, 2] }) 0x100 0x80;
      t.fault = false ∧ Converged 0x100 0x80 t) :=
  ⟨⟨rfl, room_of (by decide +kernel), by decide +kernel⟩, rfl, by decide +kernel, by decide +kernel,
    by decide +kernel⟩

/-- DoJumpCompletes and DoCallCompletes: the BTB element wrong, and right. -/
theorem witness_DoJumpCompletes :
    fresh.tracker.fault = false ∧ (jumpCharge fresh.tracker 0x810 0x304 = 3 ∧ Room 3 fresh) ∧
      (jumpCharge fresh.tracker 0x810 0 = 0 ∧ Room 0 fresh) :=
  ⟨rfl, ⟨by decide +kernel, room_of (by decide +kernel)⟩, by decide +kernel, room_of (by decide +kernel)⟩

theorem witness_DoCallCompletes :
    let s := withRas [0xA0, 0xB0]
    s.tracker.fault = false ∧ s.tracker.ras.length = 2 ∧ Room (jumpCharge s.tracker 0x300 0x800) s :=
  ⟨rfl, rfl, room_of (by decide +kernel)⟩

/-- The clauses of DoRetCompletes: the target on top, another address on top, nothing there. -/
theorem witness_DoRetCompletes :
    (withRas [0xA0, 0x304]).tracker.ras = [0xA0] ++ [0x304] ∧
    ((withRas [0x999]).tracker.ras.getLast? ≠ some 0x304 ∧
      Room (jumpCharge (withRas [0x999]).tracker 0x810 0x304) (withRas [0x999])) ∧
    (fresh.tracker.ras.getLast? ≠ some 0x304 ∧ Room (jumpCharge fresh.tracker 0x810 0x304) fresh) ∧
    fresh.tracker.fault = false ∧ (withRas [0x999]).tracker.fault = false :=
  ⟨rfl, ⟨by decide, room_of (by decide +kernel)⟩, ⟨by decide, room_of (by decide +kernel)⟩,
    rfl, rfl⟩

theorem witness_ReturnFallsBackToJump :
    ∃ s t u : State, s.tracker.ras.getLast? ≠ some 0x304 ∧ exec (.doRet 0x810 0x304 0x814) s = .next t ∧
      exec (.doJump 0x810 0x304 0x814) s = .next u := by
  refine ⟨withRas [0x999], next (exec (.doRet 0x810 0x304 0x814) (withRas [0x999])) fresh,
    next (exec (.doJump 0x810 0x304 0x814) (withRas [0x999])) fresh, by decide, ?_, ?_⟩
  · obtain ⟨t, h⟩ : ∃ t, exec (.doRet 0x810 0x304 0x814) (withRas [0x999]) = .next t := ⟨_, rfl⟩
    rw [h, next]
  · obtain ⟨t, h⟩ : ∃ t, exec (.doJump 0x810 0x304 0x814) (withRas [0x999]) = .next t := ⟨_, rfl⟩
    rw [h, next]

theorem witness_RasPushCompletes :
    fresh.tracker.fault = false ∧ fresh.tracker.ras.length = 0 ∧ (withRas [0xA0, 0xB0]).tracker.ras.length = 2 :=
  ⟨rfl, rfl, rfl⟩

/-- Both clauses of RasPopCompletes. -/
theorem witness_RasPopCompletes :
    (fresh.tracker.fault = false ∧ fresh.tracker.ras = []) ∧
    ((withRas [0xB0]).tracker.fault = false ∧ (withRas [0xB0]).tracker.ras = [] ++ [0xB0]) := ⟨⟨rfl, rfl⟩, rfl, rfl⟩

/-- An empty stack, and a full one. -/
theorem witness_RasCapacityTwo :
    (fresh.tracker.fault = false ∧ fresh.tracker.ras.length ≤ 2) ∧
    (withRas [0xA0, 0xB0]).tracker.fault = false ∧ (withRas [0xA0, 0xB0]).tracker.ras.length ≤ 2 :=
  ⟨⟨rfl, Nat.zero_le 2⟩, rfl, Nat.le_refl 2⟩

theorem witness_FetchHitCompletes : fresh.tracker.fault = false ∧ resident fresh.tracker 0x3FFF = true := by
  decide +kernel

/-- The draw takes the last cycle the counter has, where the greatest value of the window has no room; and a
draw outside the window. -/
theorem witness_FetchMissCompletes :
    (let s := drawAt 3 (2 ^ 64 - 4);
      s.tracker.fault = false ∧ s.build.legal ∧ resident s.tracker 0x4000 = false ∧
        Room (drawFrom s.build.miss s.ports.draw) s ∧ ¬ Room s.build.miss.hi s ∧
        s.build.miss.lo ≤ s.ports.draw ∧ s.ports.draw ≤ s.build.miss.hi) ∧
    (let s := drawAt 41 0;
      s.tracker.fault = false ∧ s.build.legal ∧ resident s.tracker 0x4000 = false ∧
        Room (drawFrom s.build.miss s.ports.draw) s) :=
  ⟨⟨rfl, by decide, by decide +kernel, room_of (by decide +kernel), (by unfold Room; decide +kernel), by decide, by decide⟩,
    rfl, by decide, by decide +kernel, room_of (by decide +kernel)⟩

/-- What `next` answers is what the command answered. -/
theorem exec_eq_next (i : Instr) (s d : State) (h : ∃ t, exec i s = .next t) : exec i s = .next (next (exec i s) d) := by
  obtain ⟨t, h⟩ := h
  rw [h, next]

/-- Every command answers a next state. -/
theorem exec_answers (i : Instr) (s : State) : ∃ t, exec i s = .next t := by
  have key : ∀ q b body, ∃ t, runCommand s q b body = .next t := by
    intro q b body
    rcases runCommand_cases s q b body with ⟨_, h⟩ | ⟨_, _, _, h⟩ | ⟨_, _, _, _, h⟩ <;> exact ⟨_, h⟩
  cases i with
  | rasPush a => exact key none false (.ok (rasPush a s.tracker, 0))
  | rdCycles => exact key none false (.ok (s.tracker, BitVec.ofNat 64 s.tracker.totalCycles))
  | _ => exact key _ _ _

/-- The state after a fetch. -/
def fetched (pc : Addr) (s : State) : State := next (exec (.fetch pc) s) s

theorem exec_fetch (pc : Addr) (s : State) : exec (.fetch pc) s = .next (fetched pc s) :=
  exec_eq_next _ _ _ (exec_answers _ _)

theorem witness_FetchMarksLeastRecentlyUsed :
    fresh.tracker.fault = false ∧ exec (.fetch 0x80000040) fresh = .next (fetched 0x80000040 fresh) ∧
      (fetched 0x80000040 fresh).tracker.fault = false := ⟨rfl, exec_fetch _ _, by decide +kernel⟩

/-- The three clauses of CacheLaw: a first access, a second one to the same block, and three blocks of one
bucket in turn (S8). -/
theorem witness_CacheLaw_first :
    Invariant fresh ∧ fresh.tracker.fault = false ∧ resident fresh.tracker 0x80000040 = false ∧
      exec (.fetch 0x80000040) fresh = .next (fetched 0x80000040 fresh) ∧
      (fetched 0x80000040 fresh).tracker.fault = false :=
  ⟨fresh_invariant, rfl, by decide +kernel, exec_fetch _ _, by decide +kernel⟩

theorem witness_CacheLaw_second :
    fresh.tracker.fault = false ∧ exec (.fetch 0x80000040) fresh = .next (fetched 0x80000040 fresh) ∧
      (fetched 0x80000040 fresh).tracker.fault = false ∧
      icTag 0x8000005F = icTag 0x80000040 ∧ icBlock 0x8000005F = icBlock 0x80000040 :=
  ⟨rfl, exec_fetch _ _, by decide +kernel, by decide, by decide⟩

theorem witness_CacheLaw_third :
    ∃ p1 p2 p3 : Addr, ∃ s t u v : State, s.tracker.fault = false ∧
      icTag p2 = icTag p1 ∧ icTag p3 = icTag p1 ∧
      icBlock p2 ≠ icBlock p1 ∧ icBlock p3 ≠ icBlock p1 ∧ icBlock p3 ≠ icBlock p2 ∧
      exec (.fetch p1) s = .next t ∧ exec (.fetch p2) t = .next u ∧ exec (.fetch p3) u = .next v ∧
      v.tracker.fault = false :=
  ⟨0x80000040, 0x80004040, 0x80008040, fresh, _, _, _, rfl, by decide, by decide, by decide, by decide, by decide,
    exec_fetch _ _, exec_fetch _ _, exec_fetch _ _, by decide +kernel⟩

/-- Both clauses of FetchReturnsInstructionWord. -/
theorem witness_FetchReturnsInstructionWord :
    (fresh.tracker.fault = false ∧ exec (.fetch 0x80000041) fresh = .next (fetched 0x80000041 fresh) ∧
      (fetched 0x80000041 fresh).tracker.fault = false) ∧
    ((∀ pc, Instr.rdCycles ≠ .fetch pc) ∧ ∃ t, exec .rdCycles fresh = .next t) :=
  ⟨⟨rfl, exec_fetch _ _, by decide +kernel⟩, nofun, exec_answers _ _⟩

end Sys2Proof.Tests
end

/-! The step, one equation per event it meets (00_scope.md rule R5; 30_encoding.md rules R85, R96), and the
statements about it. -/

namespace Sys2Proof.Machine

/-- R232: nothing is driven. -/
theorem step_of_pending_nil {s : State} (hp : s.ports.pending = []) : step s = .next (idle s) := by
  rw [step, hp]

/-- R85: a command word is driven; the state that serves it has accepted it. -/
theorem step_of_pending_command {s : State} {w : CmdWord} {d : Nat} {m : Word} {rest : List PortEvent}
    (hp : s.ports.pending = .command w d m :: rest) : step s = runWord w (acceptCommand s d m rest) := by
  rw [step, hp]

/-- R96: a legal word runs its command. -/
theorem runWord_of_decode_ok {w : CmdWord} {i : Instr} (hw : decode w = .ok i) (s : State) :
    runWord w s = exec i s := by
  rw [runWord, hw]

/-- Settles O5: the step accepts the command, and the accepted word runs what it decodes to. -/
theorem stepRunsDecodedCommand : Obligations.StepRunsDecodedCommand := by
  intro s w draw imemData rest i hp hw
  calc step s = runWord w (acceptCommand s draw imemData rest) := step_of_pending_command hp
    _ = exec i (acceptCommand s draw imemData rest) := runWord_of_decode_ok hw _

/-- Settles O8: the step with nothing driven is `idle`, which touches only the output ports. -/
theorem idleStepHoldsTracker : Obligations.IdleStepHoldsTracker := by
  intro s hp
  exact ⟨idle s, step_of_pending_nil hp, idle_tracker s, idle_build s, rfl⟩

end Sys2Proof.Machine

/-! The charge of a command (70_reset_and_hazards.md rule R270): what a completed command adds to the cycle
counter, and how the response shows it (30_encoding.md rule R87). -/

namespace Sys2Proof.Machine

open Sys2Proof.Safety

/-- R270: the one wait in a command's effect is its charge; the writes around it leave the counter alone. -/
theorem effect_totalCycles {i : Instr} {s : State} {t : Tracker} (h : Effect s t i) :
    ∃ c, ChargeOf s (drawFrom s.build.miss s.ports.draw) i c ∧
      t.totalCycles = s.tracker.totalCycles + c := by
  cases i with
  | advance n => exact ⟨_, rfl, waited_totalCycles h.2⟩
  | stall n => exact ⟨_, rfl, waited_totalCycles h.2⟩
  | accessReg reg => exact ⟨_, rfl, waited_totalCycles h⟩
  | addLat reg cycles => obtain ⟨_, _, rfl⟩ := h; exact ⟨_, rfl, rfl⟩
  | reserveMult n => obtain ⟨_, m, hm, rfl⟩ := h; exact ⟨_, rfl, (waited_totalCycles hm :)⟩
  | reserveDiv n => obtain ⟨_, m, hm, rfl⟩ := h; exact ⟨_, rfl, (waited_totalCycles hm :)⟩
  | doMult reg a b => obtain ⟨m, hm, _, rfl⟩ := h; exact ⟨_, rfl, (waited_totalCycles hm :)⟩
  | doDiv reg a b => obtain ⟨m, hm, _, rfl⟩ := h; exact ⟨_, rfl, (waited_totalCycles hm :)⟩
  | doCsr reg => obtain ⟨_, rfl⟩ := h; exact ⟨_, rfl, rfl⟩
  | reserveStore start stop n => obtain ⟨_, _, _, rfl⟩ := h; exact ⟨_, rfl, rfl⟩
  | hasStore start stop => obtain ⟨_, _, rfl⟩ := h; exact ⟨_, rfl, rfl⟩
  | doLoad start stop reg n =>
    obtain ⟨_, _, _, m, extra, he, hm, _, rfl⟩ := h
    exact ⟨extra, he, (waited_totalCycles hm :)⟩
  | updateBp pc newPc taken =>
    obtain ⟨m, hm, rfl⟩ := h
    refine ⟨_, rfl, ?_⟩
    rw [setBht_totalCycles, apply_ite Tracker.totalCycles, setBtb_totalCycles, ite_self]
    exact waited_totalCycles hm
  | doJump origin target fall => obtain ⟨m, hm, rfl⟩ := h; exact ⟨_, rfl, (waited_totalCycles hm :)⟩
  | doCall origin target fall => obtain ⟨m, hm, rfl⟩ := h; exact ⟨_, rfl, (waited_totalCycles hm :)⟩
  | doRet origin target fall =>
    refine ⟨_, rfl, ?_⟩
    rcases h with ⟨older, hras, rfl⟩ | ⟨hmiss, m, hm, rfl⟩
    · rw [if_pos (by rw [hras, List.getLast?_concat])]; rfl
    · rw [if_neg hmiss]; exact (waited_totalCycles hm :)
  | rasPush a => cases h; exact ⟨_, rfl, rfl⟩
  | rasPop => obtain ⟨_, _, _, rfl⟩ := h; exact ⟨_, rfl, rfl⟩
  | fetch pc =>
    refine ⟨_, rfl, ?_⟩
    rcases h with ⟨hhit, rfl⟩ | ⟨hmiss, _, m, hm, rfl⟩
    · rw [if_pos hhit]; rfl
    · rw [hmiss, if_neg Bool.false_ne_true]; exact hm.totalCycles
  | rdCycles => cases h; exact ⟨_, rfl, rfl⟩

theorem busyFor_lt {u : OpReservation} (hu : UnitOk u) : busyFor u < 2 ^ 32 := by
  unfold busyFor
  split
  · next ha => exact (hu.1 ha).2
  · norm_num

theorem jumpCharge_le (t : Tracker) (origin target : Addr) : jumpCharge t origin target ≤ 3 := by
  unfold jumpCharge
  split <;> omega

theorem loadExtra_le {t : Tracker} {start : Addr} {stop : RangeEnd} {extra : Nat}
    (h : LoadExtra t start stop extra) : extra ≤ 7 := by
  rcases h with ⟨_, rfl⟩ | ⟨_, _, rfl⟩ | ⟨_, _, rfl⟩ <;> omega

/-- In a state of a run every charge fits the 32 bits of `resp_charged` (R84). -/
theorem chargeOf_lt {i : Instr} {s : State} {d c : Nat} (hinv : Invariant s) (hd : d < 2 ^ 32)
    (h : ChargeOf s d i c) : c < 2 ^ 32 := by
  cases i with
  | advance n => exact h ▸ count_lt n
  | stall n => exact h ▸ count_lt n
  | accessReg reg => exact h ▸ hinv.reglat reg
  | reserveMult n => exact h ▸ busyFor_lt hinv.mult
  | reserveDiv n => exact h ▸ busyFor_lt hinv.div
  | doMult reg a b => exact h ▸ busyFor_lt hinv.mult
  | doDiv reg a b => exact h ▸ busyFor_lt hinv.div
  | doLoad start stop reg n => exact (loadExtra_le h).trans_lt (by norm_num)
  | updateBp pc newPc taken => cases h; split <;> norm_num
  | doJump origin target fall => exact h ▸ (jumpCharge_le _ _ _).trans_lt (by norm_num)
  | doCall origin target fall => exact h ▸ (jumpCharge_le _ _ _).trans_lt (by norm_num)
  | doRet origin target fall =>
    cases h
    split
    · norm_num
    · exact (jumpCharge_le _ _ _).trans_lt (by norm_num)
  | fetch pc =>
    cases h
    split
    · norm_num
    · exact hd
  | _ => cases h; norm_num -- every other command charges 0

/-- R87: a response shows a charge that fits `resp_charged` whole. -/
theorem chargedOf_complete {s : State} {t : Tracker} {c : Nat} (d : BitVec 64) (q : Option Addr) (b : Bool)
    (ht : t.totalCycles = s.tracker.totalCycles + c) (hc : c < 2 ^ 32) :
    chargedOf (complete s t d q b) = c := by
  rw [chargedOf, complete_resp]
  simp only [okResponse, ht, Nat.add_sub_cancel_left, BitVec.toNat_ofNat, Nat.mod_eq_of_lt hc]

/-- Settles O19: the effect of the completed command moves the counter by its charge, and the charge fits
`resp_charged`. -/
theorem chargesMoveTheCounter : Obligations.ChargesMoveTheCounter := by
  intro i s t hinv hf hexec hf'
  obtain ⟨_, _, hle, hhi⟩ := hinv.build
  obtain ⟨hlo, hup⟩ := drawFrom_mem s.build.miss hle s.ports.draw
  obtain ⟨heff, d, ht⟩ := exec_next hf hexec hf'
  obtain ⟨c, hcharge, htotal⟩ := effect_totalCycles heff
  refine ⟨c, hcharge, hlo, hup, htotal, ?_⟩
  rw [ht]
  exact chargedOf_complete d _ _ htotal (chargeOf_lt hinv (hup.trans_lt hhi) hcharge)

end Sys2Proof.Machine

/-! Time (40_time.md): ADVANCE and STALL, and a run of ADVANCE commands. -/

namespace Sys2Proof.Machine

open Sys2Proof.Safety

/-- R114: the two commands run one procedure. -/
theorem exec_stall_eq_exec_advance (n : Count) (s : State) : exec (.stall n) s = exec (.advance n) s := rfl

/-- A count that is not 0 moves time. -/
theorem count_toNat_ne_zero {n : Count} (h : n ≠ 0) : n.toNat ≠ 0 := fun h0 => h (BitVec.eq_of_toNat_eq h0)

/-- Settles O24: with room, `advance` answers the aged tracker, and the command completes with it. -/
theorem advanceCompletes : Obligations.AdvanceCompletes := by
  intro n s hf hn hroom
  obtain ⟨t', hadv, haged⟩ := advance_completes (count_toNat_ne_zero hn) hroom
  obtain ⟨t, hexec, rfl, hdone⟩ := quiet_completes hf hadv haged.totalCycles
  exact ⟨t, hexec, haged, hdone⟩

/-- Settles O25: STALL is ADVANCE, so it completes as ADVANCE does. -/
theorem stallIsAdvance : Obligations.StallIsAdvance :=
  ⟨exec_stall_eq_exec_advance, advanceCompletes⟩

/-- The run of one more step goes on from where the first step leads. -/
theorem core_run_succ {s u : State} (h : step s = .next u) (k : Nat) : core.run (k + 1) s = core.run k u := by
  simp only [Host.Core.run, show core.step s = .next u from h]

/-- A run that answers a state has a first step that does. -/
theorem core_run_succ_next {k : Nat} {s t : State} (h : core.run (k + 1) s = .next t) :
    ∃ u, step s = .next u ∧ core.run k u = .next t := by
  cases hs : step s with
  | next u => exact ⟨u, rfl, core_run_succ hs k ▸ h⟩
  | fault r => exact nomatch r
  | refused r => simp [Host.Core.run, show core.step s = .refused r from hs] at h

/-- R115 at one event: an ADVANCE word that is driven next is taken and moves the counter by its count. -/
theorem step_advance {s : State} {w : CmdWord} {n : Count} {d : Nat} {m : Word} {rest : List PortEvent}
    (hp : s.ports.pending = .command w d m :: rest) (hw : decode w = .ok (.advance n)) (hn : n ≠ 0)
    (hf : s.tracker.fault = false) (hroom : Room n.toNat s) :
    ∃ t, step s = .next t ∧ t.tracker.fault = false ∧
      t.tracker.totalCycles = s.tracker.totalCycles + n.toNat ∧ t.ports.pending = rest := by
  obtain ⟨t, hexec, haged, _, hports⟩ := advanceCompletes n (acceptCommand s d m rest) hf hn hroom
  refine ⟨t, ?_, haged.fault.trans hf, haged.totalCycles, by rw [hports]; rfl⟩
  rw [step_of_pending_command hp, runWord_of_decode_ok hw, hexec]

/-- R115, first sentence, by induction on the ADVANCE words that are driven. -/
theorem run_advances (events : List (Count × CmdWord × Nat × Word)) (rest : List PortEvent) (s : State)
    (hf : s.tracker.fault = false)
    (hev : ∀ n w d m, (n, w, d, m) ∈ events → decode w = .ok (.advance n) ∧ n ≠ 0)
    (hroom : Room (events.map fun e => e.1.toNat).sum s)
    (hp : s.ports.pending = events.map (fun e => .command e.2.1 e.2.2.1 e.2.2.2) ++ rest) :
    ∃ t, core.run events.length s = .next t ∧ t.tracker.fault = false ∧
      t.tracker.totalCycles = s.tracker.totalCycles + (events.map fun e => e.1.toNat).sum := by
  induction events generalizing s with
  | nil => exact ⟨s, rfl, hf, rfl⟩
  | cons e events ih =>
    obtain ⟨n, w, d, m⟩ := e
    obtain ⟨hw, hn⟩ := hev n w d m (List.mem_cons_self ..)
    simp only [Room, List.map_cons, List.sum_cons] at hroom ⊢
    obtain ⟨u, hstep, hfu, htotal, hpu⟩ := step_advance hp hw hn hf (by unfold Room; omega)
    obtain ⟨t, hrun, hft, hsum⟩ := ih u hfu (fun n w d m h => hev n w d m (List.mem_cons_of_mem _ h))
      (by unfold Room; omega) hpu
    refine ⟨t, ?_, hft, by omega⟩
    rw [List.length_cons, core_run_succ hstep, hrun]

end Sys2Proof.Machine

/-! R33: no command takes the cycle counter to `2^64`. `Effect` says where a command waits and not that the
wait had room, so this is read off the procedures: time moves in `advance` only. -/

namespace Sys2Proof.Machine

open Sys2Proof.Safety

/-- Whatever the procedure answers, its counter is below `2^64` (R33). -/
def CounterFits (body : Except Cause Tracker) : Prop := ∀ t, body = .ok t → t.totalCycles < 2 ^ 64

theorem counterFits_error (c : Cause) : CounterFits (.error c) := nofun

theorem counterFits_ok {t : Tracker} (ht : t.totalCycles < 2 ^ 64) : CounterFits (.ok t) := by
  rintro _ ⟨⟩
  exact ht

/-- R110: `advance` looks for room before it moves the counter. -/
theorem counterFits_stall (n : Nat) (t : Tracker) : CounterFits (stall n t) := by
  intro t' h
  obtain ⟨_, hroom, hw⟩ := waited_of_stall h
  rwa [waited_totalCycles hw]

theorem counterFits_bind {body : Except Cause Tracker} {f : Tracker → Except Cause Tracker}
    (hb : CounterFits body) (hf : ∀ t, t.totalCycles < 2 ^ 64 → CounterFits (f t)) :
    CounterFits (body.bind f) := by
  cases body with
  | error c => exact counterFits_error c
  | ok t => exact hf t (hb t rfl)

theorem counterFits_map {body : Except Cause Tracker} {f : Tracker → Tracker}
    (hb : CounterFits body) (hf : ∀ t, (f t).totalCycles = t.totalCycles) : CounterFits (body.map f) :=
  counterFits_bind (f := fun t => .ok (f t)) hb fun t ht => counterFits_ok ((hf t).trans_lt ht)

theorem counterFits_ite {p : Prop} [Decidable p] {body body' : Except Cause Tracker}
    (hb : CounterFits body) (hb' : CounterFits body') : CounterFits (if p then body else body') := by
  split
  · exact hb
  · exact hb'

section

variable {t : Tracker} (ht : t.totalCycles < 2 ^ 64)
include ht

theorem counterFits_accessRegister (reg : RegIx) : CounterFits (accessRegister reg t) :=
  counterFits_ite (counterFits_ok ht) (counterFits_stall _ _)

theorem counterFits_addResultLatency (reg : RegIx) (n : Nat) : CounterFits (addResultLatency reg n t) := by
  intro t' h
  obtain ⟨_, _, rfl⟩ := (addResultLatency_ok_iff reg n t t').mp h
  exact ht

theorem counterFits_reserve (u : FuncUnit) (n : Nat) : CounterFits (reserve u n t) := by
  refine counterFits_ite (counterFits_error _) (counterFits_bind
    (counterFits_ite (counterFits_stall _ _) (counterFits_ok ht)) fun t1 ht1 => ?_)
  cases acquire (unitOf t1 u) n with
  | error c => exact counterFits_error c
  | ok r => exact counterFits_ok ((setUnit_totalCycles t1 u r).trans_lt ht1)

theorem counterFits_useUnit (u : FuncUnit) (reg : RegIx) (n : Nat) : CounterFits (useUnit u reg n t) :=
  counterFits_bind (counterFits_reserve ht u n) fun _ h => counterFits_addResultLatency h reg _

theorem counterFits_doLoad (r : AddrRange) (reg : RegIx) (n : Nat) : CounterFits (doLoad r reg n t) :=
  counterFits_ite (counterFits_ite (counterFits_error _) (counterFits_bind
    (counterFits_ite (counterFits_stall _ _) (counterFits_ok ht))
    fun _ h => counterFits_addResultLatency h reg n)) (counterFits_error _)

theorem counterFits_updateBranchPrediction (pc newPc : Addr) (taken : Bool) :
    CounterFits (updateBranchPrediction pc newPc taken t) := by
  refine counterFits_map ?_ (bhtUpdate_totalCycles pc taken)
  rw [resolveBranch_eq]
  exact counterFits_ite (counterFits_stall _ _) (counterFits_ok ht)

theorem counterFits_doJump (origin target : Addr) : CounterFits (doJump origin target t) :=
  counterFits_ite (counterFits_ok ht) (counterFits_stall _ _)

theorem counterFits_doCall (origin target fall : Addr) : CounterFits (doCall origin target fall t) :=
  counterFits_map (counterFits_doJump ht origin target) (rasPush_totalCycles fall)

theorem counterFits_doRet (origin target : Addr) : CounterFits (doRet origin target t) := by
  by_cases hr : t.ras.getLast? = some target
  · obtain ⟨older, ho⟩ := List.getLast?_eq_some_iff.mp hr
    rw [doRet_hit ho]
    exact counterFits_ok ht
  · rw [doRet_miss hr]
    exact counterFits_doJump (t := { t with ras := t.ras.dropLast }) ht origin target

theorem counterFits_fetchTiming (pc : Addr) (p : Nat) : CounterFits (fetchTiming pc p t) :=
  counterFits_ite (counterFits_ok ht) (counterFits_map (counterFits_stall _ _) fun t1 => setIc_totalCycles t1 pc _)

end

/-- A command leaves the counter below `2^64` if the procedure it runs does. -/
theorem command_counterFits {s s' : State} {q : Option Addr} {b : Bool} {body : Except Cause Tracker}
    {data : Tracker → BitVec 64} (h0 : s.tracker.totalCycles < 2 ^ 64) (hb : CounterFits body)
    (h : runCommand s q b (body.map fun t => (t, data t)) = .next s') : s'.tracker.totalCycles < 2 ^ 64 := by
  rcases runCommand_cases s q b (body.map fun t => (t, data t)) with ⟨_, h1⟩ | ⟨_, c, _, h1⟩ | ⟨_, t, d, h2, h1⟩
  · cases h1.symm.trans h; exact h0
  · cases h1.symm.trans h; exact h0
  · cases h1.symm.trans h
    cases body with
    | error c => cases h2
    | ok t' => cases h2; exact hb _ rfl

/-- A command that charges nothing leaves the counter, however it ends. -/
theorem exec_totalCycles_of_uncharged {i : Instr} {s s' : State}
    (h : exec i s = .next s') (hfree : ∀ d c, ChargeOf s d i c → c = 0) :
    s'.tracker.totalCycles = s.tracker.totalCycles := by
  cases hf : s.tracker.fault with
  | true => cases (exec_frozen i hf).symm.trans h; rfl
  | false =>
    rcases exec_outcome i hf with ⟨c, h1, _⟩ | ⟨t, d, h1, heff⟩
    · cases h1.symm.trans h; rfl
    · cases h1.symm.trans h
      obtain ⟨c, hc, htotal⟩ := effect_totalCycles heff
      rwa [hfree _ c hc] at htotal

/-- R33, over all commands. -/
theorem exec_totalCycles_lt {i : Instr} {s s' : State} (h0 : s.tracker.totalCycles < 2 ^ 64)
    (h : exec i s = .next s') : s'.tracker.totalCycles < 2 ^ 64 := by
  cases i with
  | advance n => exact command_counterFits h0 (counterFits_stall _ _) h
  | stall n => exact command_counterFits h0 (counterFits_stall _ _) h
  | accessReg reg => exact command_counterFits h0 (counterFits_accessRegister h0 _) h
  | reserveMult n => exact command_counterFits h0 (counterFits_reserve h0 _ _) h
  | reserveDiv n => exact command_counterFits h0 (counterFits_reserve h0 _ _) h
  | doMult reg a b => exact command_counterFits h0 (counterFits_useUnit h0 _ _ _) h
  | doDiv reg a b => exact command_counterFits h0 (counterFits_useUnit h0 _ _ _) h
  | doLoad start stop reg n => exact command_counterFits h0 (counterFits_doLoad h0 _ _ _) h
  | updateBp pc newPc taken =>
    exact command_counterFits h0 (counterFits_updateBranchPrediction h0 _ _ _) h
  | doJump origin target fall => exact command_counterFits h0 (counterFits_doJump h0 _ _) h
  | doCall origin target fall => exact command_counterFits h0 (counterFits_doCall h0 _ _ _) h
  | doRet origin target fall => exact command_counterFits h0 (counterFits_doRet h0 _ _) h
  | fetch pc => exact command_counterFits h0 (counterFits_fetchTiming h0 _ _) h
  | _ => exact (exec_totalCycles_of_uncharged h fun _ _ hc => hc).trans_lt h0 -- the others charge 0

end Sys2Proof.Machine

/-! The invariant of every run (10_state.md) through one command. Each lemma is about one update of the
tracker of a state; a command's effect is a chain of them. `{ hi with }` closes an update of what the invariant
does not speak of: the predictor's tables, the ports. -/

namespace Sys2Proof.Machine

open Sys2Proof.Safety

/-! Waiting. -/

theorem agedUnit_unitOk {u : OpReservation} (hu : UnitOk u) (n : Nat) : UnitOk (agedUnit n u) := by
  unfold agedUnit
  split
  · next ha =>
    have hb := hu.1 ha
    split
    · exact ⟨nofun, fun _ => rfl⟩
    · exact ⟨fun _ => ⟨by dsimp only; omega, by dsimp only; omega⟩, nofun⟩
  · exact hu

/-- R110: a store reservation that stays has a cycle left. -/
theorem agedStores_storeOk {l : List StoreReservation} (hl : ∀ r ∈ l, StoreOk r) (n : Nat) :
    ∀ r ∈ ageStores n l, StoreOk r := by
  intro r hr
  obtain ⟨q, hq, rfl⟩ := List.mem_map.mp hr
  obtain ⟨hmem, hlive⟩ := List.mem_filter.mp hq
  have hn := of_decide_eq_true hlive
  obtain ⟨hle, hend, _, hmax⟩ := hl q hmem
  exact ⟨hle, hend, by dsimp only; omega, by dsimp only; omega⟩

theorem length_ageStores_le (n : Nat) (l : List StoreReservation) : (ageStores n l).length ≤ l.length := by
  rw [ageStores, List.length_map]
  exact List.length_filter_le _ _

theorem invariant_aged {s : State} {n : Nat} {m : Tracker} (hi : Invariant s) (ha : Aged n s.tracker m)
    (hm : m.totalCycles < 2 ^ 64) : Invariant { s with tracker := m } where
  build := hi.build
  reglat i := (ha.reglat i).trans_lt (Nat.sub_lt_of_lt (hi.reglat i))
  mult := ha.mult ▸ agedUnit_unitOk hi.mult n
  div := ha.div ▸ agedUnit_unitOk hi.div n
  stores := ha.stores ▸ agedStores_storeOk hi.stores n
  slots k hk := ha.stores ▸ (length_ageStores_le n s.tracker.stores).trans (hi.slots k hk)
  totalCycles := hm
  ras := ha.ras ▸ hi.ras
  ic := ha.ic ▸ hi.ic
  cause := by
    unfold CauseOk
    rw [ha.fault, ha.cause]
    exact hi.cause

theorem invariant_waited {s : State} {n : Nat} {m : Tracker} (hi : Invariant s) (hw : Waited n s.tracker m)
    (hm : m.totalCycles < 2 ^ 64) : Invariant { s with tracker := m } := by
  by_cases hn : n = 0
  · subst hn
    rw [waited_zero.mp hw]
    exact hi
  · exact invariant_aged hi ((waited_pos hn).mp hw) hm

/-! Writes. -/

section

variable {s : State} (hi : Invariant s)
include hi

theorem invariant_setLatency (reg : RegIx) {v : Nat} (hv : v < 2 ^ 32) :
    Invariant { s with tracker := setLatency s.tracker reg v } :=
  { hi with
    reglat := fun i => by
      rw [latency_setLatency]
      split
      · exact hv
      · exact hi.reglat i }

theorem invariant_setUnit (u : FuncUnit) {n : Nat} (hn : n ≠ 0) (hlt : n < 2 ^ 32) :
    Invariant { s with tracker := setUnit s.tracker u { acquired := true, remaining := n } } := by
  have hu : UnitOk { acquired := true, remaining := n } := ⟨fun _ => ⟨Nat.pos_of_ne_zero hn, hlt⟩, nofun⟩
  cases u
  · exact { hi with mult := hu }
  · exact { hi with div := hu }

theorem invariant_setBht (pc : Addr) (e : BhtEntry) : Invariant { s with tracker := setBht s.tracker pc e } :=
  { hi with }

theorem invariant_setBtb (pc a : Addr) : Invariant { s with tracker := setBtb s.tracker pc a } :=
  { hi with }

theorem invariant_ras {l : List Addr} (hl : l.length ≤ 2) :
    Invariant { s with tracker := { s.tracker with ras := l } } :=
  { hi with ras := hl }

/-- R172: a push on a full stack drops the oldest entry. -/
theorem invariant_rasPush (a : Addr) : Invariant { s with tracker := rasPush a s.tracker } := by
  refine invariant_ras hi ?_
  have := hi.ras
  rw [rasCap_eq, List.length_append, List.length_singleton]
  split
  · rw [List.length_tail]; omega
  · omega

/-- R30, R150: a store is reserved only while a slot is free. -/
theorem invariant_reserveStore {start : Addr} {stop : RangeEnd} (n : Count) (h1 : start.toNat ≤ stop.toNat)
    (h2 : stop.toNat ≤ 2 ^ 32) (hfree : storeSetFull s.build.storeSlots s.tracker = false) :
    Invariant { s with tracker := { s.tracker with stores := s.tracker.stores ++
      [{ range := { start := start, stop := stop }, remaining := n.toNat + 1 }] } } :=
  { hi with
    stores := fun r hr => by
      rcases List.mem_append.mp hr with hr | hr
      · exact hi.stores r hr
      · cases List.mem_singleton.mp hr
        exact ⟨h1, h2, Nat.le_add_left _ _, count_lt n⟩
    slots := fun k hk => by
      have hk : s.build.storeSlots = some k := hk
      rw [hk] at hfree
      have := of_decide_eq_false hfree
      rw [List.length_append, List.length_singleton]
      omega }

/-! The instruction cache (R43, R201). -/

theorem icAt_bucketOk (pc : Addr) : BucketOk (icAt s.tracker pc) :=
  hi.ic _ (Vector.mem_toList_iff.mpr (Vector.getElem_mem _))

theorem invariant_setIc (pc : Addr) {e : CacheBucket} (he : BucketOk e) :
    Invariant { s with tracker := setIc s.tracker pc e } :=
  { hi with
    ic := fun e' h' => by
      rcases Vector.mem_or_eq_of_mem_set (hi := (icTag pc).isLt) (Vector.mem_toList_iff.mp h') with hmem | rfl
      · exact hi.ic e' (Vector.mem_toList_iff.mpr hmem)
      · exact he }

end

theorem icBlock_low (pc : Addr) : (icBlock pc).extractLsb' 0 14 = 0 := by
  rw [icBlock_eq, BitVec.extractLsb'_and, show (~~~0x3FFF#32).extractLsb' 0 14 = 0#14 from by decide, BitVec.and_zero]
  rfl

/-- R43: the block a miss brings in is the other way's only if both are 0. -/
theorem fillBucket_bucketOk {e : CacheBucket} {pc : Addr} (he : BucketOk e) (h1 : e.firstBlock ≠ icBlock pc)
    (h2 : e.secondBlock ≠ icBlock pc) : BucketOk (fillBucket e (icBlock pc)) := by
  obtain ⟨hfirst, hsecond, _⟩ := he
  unfold fillBucket
  split
  · exact ⟨hfirst, icBlock_low pc, fun h => absurd h h1⟩
  · exact ⟨icBlock_low pc, hsecond, fun h => absurd h.symm h2⟩

theorem not_resident_iff {t : Tracker} {pc : Addr} :
    resident t pc = false ↔ (icAt t pc).firstBlock ≠ icBlock pc ∧ (icAt t pc).secondBlock ≠ icBlock pc := by
  simp [resident]

/-! One command. -/

/-- A completed command keeps the invariant. -/
theorem effect_invariant {i : Instr} {s : State} {t : Tracker} (hi : Invariant s) (h : Effect s t i)
    (ht : t.totalCycles < 2 ^ 64) : Invariant { s with tracker := t } := by
  cases i with
  | advance n => exact invariant_waited hi h.2 ht
  | stall n => exact invariant_waited hi h.2 ht
  | accessReg reg => exact invariant_waited hi h ht
  | addLat reg n =>
    obtain ⟨_, _, rfl⟩ := h
    exact invariant_setLatency hi reg (count_lt n)
  | reserveMult n =>
    obtain ⟨hn, m, hm, rfl⟩ := h
    exact invariant_setUnit (invariant_waited hi hm ht) .mult hn (count_lt n)
  | reserveDiv n =>
    obtain ⟨hn, m, hm, rfl⟩ := h
    exact invariant_setUnit (invariant_waited hi hm ht) .div hn (count_lt n)
  | doMult reg a b =>
    obtain ⟨m, hm, _, rfl⟩ := h
    exact invariant_setLatency (invariant_setUnit (invariant_waited hi hm ht) .mult (by decide) (by decide))
      reg (by decide)
  | doDiv reg a b =>
    obtain ⟨⟨hpos, hle, hmax⟩, _⟩ := hi.build
    obtain ⟨hlo, hhi⟩ := drawFrom_mem s.build.div hle s.ports.draw
    obtain ⟨m, hm, _, rfl⟩ := h
    exact invariant_setLatency (invariant_setUnit (invariant_waited hi hm ht) .div (by omega) (by omega))
      reg (by omega)
  | doCsr reg =>
    obtain ⟨_, rfl⟩ := h
    exact invariant_setLatency hi reg (by decide)
  | reserveStore start stop n =>
    obtain ⟨h1, h2, hfree, rfl⟩ := h
    exact invariant_reserveStore hi n h1 h2 hfree
  | hasStore start stop => obtain ⟨_, _, rfl⟩ := h; exact hi
  | doLoad start stop reg n =>
    obtain ⟨_, _, _, m, _, _, hm, _, rfl⟩ := h
    exact invariant_setLatency (invariant_waited hi hm ht) reg (count_lt n)
  | updateBp pc newPc taken =>
    obtain ⟨m, hm, rfl⟩ := h
    have hwait := invariant_waited hi hm (by split at ht <;> exact ht)
    split
    · exact invariant_setBht (invariant_setBtb hwait pc newPc) pc _
    · exact invariant_setBht hwait pc _
  | doJump origin target fall =>
    obtain ⟨m, hm, rfl⟩ := h
    exact invariant_setBtb (invariant_waited hi hm ht) origin target
  | doCall origin target fall =>
    obtain ⟨m, hm, rfl⟩ := h
    exact invariant_rasPush (invariant_setBtb (invariant_waited hi hm ht) origin target) fall
  | doRet origin target fall =>
    have hlen := hi.ras
    rcases h with ⟨older, hras, rfl⟩ | ⟨_, m, hm, rfl⟩
    · rw [hras, List.length_append] at hlen
      exact invariant_ras hi (by omega)
    · have hpop := invariant_ras hi (l := s.tracker.ras.dropLast) (by rw [List.length_dropLast]; omega)
      exact invariant_setBtb (invariant_waited hpop hm ht) origin target
  | rasPush a => cases h; exact invariant_rasPush hi a
  | rasPop =>
    have hlen := hi.ras
    obtain ⟨older, a, hras, rfl⟩ := h
    rw [hras, List.length_append] at hlen
    exact invariant_ras hi (by omega)
  | fetch pc =>
    have he := icAt_bucketOk hi pc
    rcases h with ⟨_, rfl⟩ | ⟨hmiss, _, m, hm, rfl⟩
    · exact invariant_setIc hi pc he
    · obtain ⟨h1, h2⟩ := not_resident_iff.mp hmiss
      exact invariant_setIc (invariant_aged hi hm ht) pc (fillBucket_bucketOk he h1 h2)
  | rdCycles => cases h; exact hi

/-- R222 names no cause beyond those of R45's range: the codes 5 and 6 never appear (R27). -/
theorem mayRaise_code {i : Instr} {c : BitVec 4} (h : mayRaise i c) :
    c = 1 ∨ c = 2 ∨ c = 3 ∨ c = 4 ∨ c = 7 ∨ c = 8 ∨ c = 9 := by
  cases i <;> simp only [mayRaise] at h <;> tauto

theorem invariant_takeFault {s : State} {c : Cause} (b : Bool) (hi : Invariant s)
    (hc : causeCode c = 1 ∨ causeCode c = 2 ∨ causeCode c = 3 ∨ causeCode c = 4 ∨ causeCode c = 7 ∨
      causeCode c = 8 ∨ causeCode c = 9) : Invariant (takeFault s c b) :=
  { hi with cause := ⟨nofun, fun _ => hc⟩ }

/-- Every command keeps the invariant, however it ends. -/
theorem exec_invariant {i : Instr} {s s' : State} (hi : Invariant s) (h : exec i s = .next s') :
    Invariant s' := by
  cases hf : s.tracker.fault with
  | true => cases (exec_frozen i hf).symm.trans h; exact { hi with }
  | false =>
    have ht := exec_totalCycles_lt hi.totalCycles h
    rcases exec_outcome i hf with ⟨c, h1, hc⟩ | ⟨t, d, h1, heff⟩
    · cases h1.symm.trans h
      exact invariant_takeFault _ hi (mayRaise_code (hc hi))
    · cases h1.symm.trans h
      exact { effect_invariant hi heff ht with }

/-- A word's run is a command's, the answer of a frozen tracker, or ILLEGAL_CMD (R96). -/
theorem runWord_next {w : CmdWord} {s s' : State} (h : runWord w s = .next s') :
    (∃ i, exec i s = .next s') ∨ s' = answerFaulted s ∨ s' = takeFault s .illegalCmd false := by
  rcases runWord_cases w s with ⟨i, _, h1⟩ | ⟨e, _, h1⟩
  · exact .inl ⟨i, h1.symm.trans h⟩
  · cases hf : s.tracker.fault with
    | true => cases (runWord_frozen w hf).symm.trans h; exact .inr (.inl rfl)
    | false => cases (h1.trans (runCommand_error hf _ _ _)).symm.trans h; exact .inr (.inr rfl)

theorem runWord_invariant {w : CmdWord} {s s' : State} (hi : Invariant s) (h : runWord w s = .next s') :
    Invariant s' := by
  rcases runWord_next h with ⟨i, hexec⟩ | rfl | rfl
  · exact exec_invariant hi hexec
  · exact { hi with }
  · exact invariant_takeFault false hi (.inl rfl)

end Sys2Proof.Machine

/-! R115 over a run of one reset (70_reset_and_hazards.md rule R254): the invariant bounds every charge, so each
response shows what its command added to the counter. -/

namespace Sys2Proof.Machine

open Sys2Proof.Safety

/-- R87: every response shows what its command added to the counter, whether it completed or not. -/
theorem exec_chargedOf {i : Instr} {s t : State} (hi : Invariant s) (h : exec i s = .next t) :
    t.tracker.totalCycles = s.tracker.totalCycles + chargedOf t := by
  cases hf : s.tracker.fault with
  | true => cases (exec_frozen i hf).symm.trans h; rfl
  | false =>
    cases hf' : t.tracker.fault with
    | true => obtain ⟨c, rfl, _⟩ := exec_fault hf h hf'; rfl
    | false =>
      obtain ⟨c, _, _, _, htotal, hcharged⟩ := chargesMoveTheCounter i s t hi hf h hf'
      rw [hcharged, htotal]

theorem runWord_chargedOf {w : CmdWord} {s t : State} (hi : Invariant s) (h : runWord w s = .next t) :
    t.tracker.totalCycles = s.tracker.totalCycles + chargedOf t := by
  rcases runWord_next h with ⟨i, hexec⟩ | rfl | rfl
  · exact exec_chargedOf hi hexec
  · rfl
  · rfl

/-- R84: a command does not touch what the outside drives next. -/
theorem exec_pending {i : Instr} {s t : State} (h : exec i s = .next t) : t.ports.pending = s.ports.pending := by
  rcases exec_cases i s with ⟨_, h1⟩ | ⟨_, c, b, h1⟩ | ⟨_, t', d, q, b, h1⟩
  · cases h1.symm.trans h; rfl
  · cases h1.symm.trans h; rfl
  · cases h1.symm.trans h; rfl

theorem runWord_pending {w : CmdWord} {s t : State} (h : runWord w s = .next t) :
    t.ports.pending = s.ports.pending := by
  rcases runWord_next h with ⟨i, hexec⟩ | rfl | rfl
  · exact exec_pending hexec
  · rfl
  · rfl

/-- One step of a run: the run goes on, and the counter moves by the charge of the response. -/
theorem step_of_run {s u : State} (hi : Invariant s) (hr : NoReset s) (h : step s = .next u) :
    Invariant u ∧ NoReset u ∧ u.tracker.totalCycles = s.tracker.totalCycles + chargedOf u := by
  rcases step_cases h with ⟨_, rfl⟩ | ⟨rest, hp, _⟩ | ⟨w, d, m, rest, hp, hword⟩
  · exact ⟨{ hi with }, hr, rfl⟩
  · exact absurd (hp ▸ List.mem_cons_self ..) hr
  · have hi' : Invariant (acceptCommand s d m rest) := { hi with }
    refine ⟨runWord_invariant hi' hword, ?_, (runWord_chargedOf hi' hword :)⟩
    intro hmem
    rw [runWord_pending hword] at hmem
    exact hr (hp ▸ List.mem_cons_of_mem _ hmem)

theorem runCharged_succ {s u : State} (h : step s = .next u) (k : Nat) :
    runCharged (k + 1) s = chargedOf u + runCharged k u := by
  rw [runCharged, h]

/-- R115 over a run, by induction on its steps. -/
theorem run_chargedOf (k : Nat) (s t : State) (hi : Invariant s) (hr : NoReset s) (h : core.run k s = .next t) :
    t.tracker.totalCycles = s.tracker.totalCycles + runCharged k s := by
  induction k generalizing s with
  | zero => cases h; rfl
  | succ k ih =>
    obtain ⟨u, hstep, hrun⟩ := core_run_succ_next h
    obtain ⟨hiu, hru, hcharge⟩ := step_of_run hi hr hstep
    calc t.tracker.totalCycles = u.tracker.totalCycles + runCharged k u := ih u hiu hru hrun
      _ = s.tracker.totalCycles + (chargedOf u + runCharged k u) := by rw [hcharge, Nat.add_assoc]
      _ = s.tracker.totalCycles + runCharged (k + 1) s := by rw [runCharged_succ hstep]

/-- Settles O20: an ADVANCE moves the counter by its count, and every step of a run by the charge it answers. -/
theorem runTotalIsSumOfCharges : Obligations.RunTotalIsSumOfCharges :=
  ⟨rfl, run_advances, run_chargedOf⟩

end Sys2Proof.Machine

/-! The register hazard detector (41_register_latency.md): ACCESS_REG, ADD_LAT, and every command that schedules
a result for a register whose entry is still live. -/

namespace Sys2Proof.Machine

open Sys2Proof.Safety

/-! A result scheduled (R121): what the register's entry decides. -/

theorem addResultLatency_free {reg : RegIx} {n : Nat} {t : Tracker} (hn : n ≠ 0) (hl : latency t reg = 0) :
    addResultLatency reg n t = .ok (setLatency t reg n) :=
  (addResultLatency_ok_iff reg n t _).mpr ⟨hn, hl, rfl⟩

theorem addResultLatency_pending {reg : RegIx} {n : Nat} {t : Tracker} (hn : n ≠ 0) (hl : latency t reg ≠ 0) :
    addResultLatency reg n t = .error .dupRegLatency :=
  (addResultLatency_error_iff reg n t _).mpr (.inr ⟨hn, hl, rfl⟩)

/-- R152: the load waits for its penalty first, and then finds the entry of its destination. -/
theorem doLoad_pending {start : Addr} {stop : RangeEnd} {reg : RegIx} {n : Nat} {t : Tracker} {extra : Nat}
    (hr : rangeWf start stop = true) (hn : n ≠ 0) (he : LoadExtra t start stop extra)
    (hroom : t.totalCycles + extra < 2 ^ 64) (hl : extra < latency t reg) :
    doLoad { start := start, stop := stop } reg n t = .error .dupRegLatency := by
  obtain ⟨hle, hend⟩ := (rangeWf_iff start stop).mp hr
  obtain ⟨m, hm⟩ := waited_exists hroom
  have hlive : latency m reg ≠ 0 := by
    rw [waited_latency hm]
    omega
  rw [doLoad_eq hle hend hn he, wait_of_room hroom hm]
  exact addResultLatency_pending hn hlive

/-- R8: no draw of a legal divide window is 0. -/
theorem drawFrom_div_ne_zero {b : Config.Build} (hb : b.legal) (d : Nat) : drawFrom b.div d ≠ 0 := by
  obtain ⟨⟨hpos, hle, _⟩, _⟩ := hb
  have hlo := (drawFrom_mem b.div hle d).1
  omega

/-- Settles O23: each of the five commands ends in the entry of its result, and its own wait is shorter than
what the register still has. -/
theorem pendingDestinationFaults : Obligations.PendingDestinationFaults := by
  intro s reg hi hf
  refine ⟨fun cycles hn hl => ?addLat, fun hl => ?doCsr, fun a b hl hroom => ?doMult, fun a b hl hroom => ?doDiv,
    fun start stop n extra hr hn he hl hroom => ?doLoad⟩
  case addLat => exact quiet_faults hf (addResultLatency_pending (count_toNat_ne_zero hn) hl)
  case doCsr => exact quiet_faults hf (addResultLatency_pending (by decide) hl)
  case doMult => exact quiet_faults hf (useUnit_pending (u := .mult) (by decide) hroom hi.mult hl)
  case doDiv =>
    have hdup := useUnit_pending (u := .div) (drawFrom_div_ne_zero hi.build s.ports.draw) hroom hi.div hl
    exact command_faults hf (congrArg (Except.map fun t => (t, (0 : BitVec 64))) hdup)
  case doLoad => exact quiet_faults hf (doLoad_pending hr (count_toNat_ne_zero hn) he hroom hl)

/-- Settles O28: the wait is as long as the entry, so it ends with the entry gone. -/
theorem accessRegisterCompletes : Obligations.AccessRegisterCompletes := by
  intro reg s hf hroom
  obtain ⟨m, hm⟩ := waited_exists hroom
  have hwait : accessRegister reg s.tracker = .ok m := (accessRegister_ok_iff _ _ _).mpr ⟨fun _ => hroom, hm⟩
  obtain ⟨t, hexec, rfl, hdone⟩ := quiet_completes hf hwait (waited_totalCycles hm)
  have havail : latency t.tracker reg = 0 := by rw [waited_latency hm, Nat.sub_self]
  exact ⟨t, hexec, hm, havail, hdone⟩

/-- Settles O29: with no entry live, the entry is the one write, and it leaves the counter alone. -/
theorem addLatencyCompletes : Obligations.AddLatencyCompletes := by
  intro reg cycles s hf hn hl
  exact quiet_completes hf (addResultLatency_free (count_toNat_ne_zero hn) hl) (setLatency_totalCycles ..)

end Sys2Proof.Machine

/-! The units (42_units.md): RESERVE_MULT, RESERVE_DIV, DO_MULT and DO_CSR. -/

namespace Sys2Proof.Machine

open Sys2Proof.Safety

/-- R26 (a): a unit that is held is not out of cycles. -/
theorem unitOk_remaining_ne_zero {u : OpReservation} (hu : UnitOk u) (ha : u.acquired = true) : u.remaining ≠ 0 :=
  Nat.pos_iff_ne_zero.mp (hu.1 ha).1

/-- R130, R131, R132: a command that only reserves a unit waits for it and then holds it. -/
theorem quiet_reserve_completes {u : FuncUnit} {n : Nat} {s : State} (hf : s.tracker.fault = false)
    (hu : UnitOk (unitOf s.tracker u)) (hn : n ≠ 0) (hroom : Room (busyFor (unitOf s.tracker u)) s) :
    ∃ t m, runQuiet s (reserve u n s.tracker) = .next t ∧ Waited (busyFor (unitOf s.tracker u)) s.tracker m ∧
      t.tracker = setUnit m u { acquired := true, remaining := n } ∧
      Done s t 0 (busyFor (unitOf s.tracker u)) none false := by
  obtain ⟨m, hm⟩ := waited_exists hroom
  have hres := reserve_ok_of hn hroom (unitOk_remaining_ne_zero hu) hm
  obtain ⟨t, hrun, ht, hdone⟩ := quiet_completes hf hres ((setUnit_totalCycles m u _).trans (waited_totalCycles hm))
  exact ⟨t, m, hrun, hm, ht, hdone⟩

/-- Settles O30: the command is the reservation of the multiply unit. -/
theorem reserveMultCompletes : Obligations.ReserveMultCompletes := by
  intro n s hf hu hn hroom
  exact quiet_reserve_completes (u := .mult) hf hu (count_toNat_ne_zero hn) hroom

/-- Settles O31: the command is the reservation of the divide unit. -/
theorem reserveDivCompletes : Obligations.ReserveDivCompletes := by
  intro n s hf hu hn hroom
  exact quiet_reserve_completes (u := .div) hf hu (count_toNat_ne_zero hn) hroom

/-- Settles O32: the destination's entry is gone once the unit is free, so the reservation and the new entry
are both made. -/
theorem doMultCompletes : Obligations.DoMultCompletes := by
  intro reg a b s hf hu hroom hl
  obtain ⟨m, hm⟩ := waited_exists hroom
  have huse := useUnit_ok_of (u := .mult) (n := multCost) (by decide) hroom hu hm hl
  obtain ⟨t, hexec, ht, hdone⟩ := quiet_completes hf huse (waited_totalCycles hm :)
  exact ⟨t, m, hexec, hm, ht, hdone⟩

/-- Settles O35: with no entry live, the entry is the one write, and it leaves the counter and the units alone. -/
theorem doCsrCompletes : Obligations.DoCsrCompletes := by
  intro reg s hf hl
  exact quiet_completes hf (addResultLatency_free (by decide) hl) (setLatency_totalCycles ..)

end Sys2Proof.Machine

/-! The store-forwarding hazard detector (43_store_load.md): RESERVE_STORE, HAS_STORE and the charge of DO_LOAD. -/

namespace Sys2Proof.Machine

open Sys2Proof.Safety

/-- R30: a slot is free while fewer stores than slots are live, and always in the unbounded set. -/
theorem storeSetFull_eq_false_iff (slots : Option Nat) (t : Tracker) :
    storeSetFull slots t = false ↔ ∀ k, slots = some k → t.stores.length < k := by
  cases slots with
  | none => exact ⟨nofun, fun _ => rfl⟩
  | some k => simp only [storeSetFull, decide_eq_false_iff_not, Nat.not_le, Option.some.injEq, forall_eq']

/-- R150: in range and with a slot free, the store enters the set beside the stores already there. -/
theorem reserveStore_ok_of {slots : Option Nat} {start : Addr} {stop : RangeEnd} {t : Tracker} (n : Nat)
    (hle : start.toNat ≤ stop.toNat) (hend : stop.toNat ≤ 2 ^ 32) (hfree : storeSetFull slots t = false) :
    reserveStore slots { start := start, stop := stop } n t =
      .ok { t with stores := t.stores ++ [{ range := { start := start, stop := stop }, remaining := n + 1 }] } := by
  rw [reserveStore, if_pos ((rangeOk_iff _ _).mpr ⟨hle, hend⟩), hfree, if_neg Bool.false_ne_true, storeExtra_eq]

/-- Settles O37: the range is legal and a slot is free, so the new entry is the one write, and it leaves the
counter alone. -/
theorem reserveStoreCompletes : Obligations.ReserveStoreCompletes := by
  intro start stop n s hf hle hend hslots
  have hfree := (storeSetFull_eq_false_iff _ _).mpr hslots
  exact quiet_completes hf (reserveStore_ok_of n.toNat hle hend hfree) rfl

/-- R151: in range, HAS_STORE answers the question and leaves the tracker as it is. -/
theorem exec_hasStore_completes {start : Addr} {stop : RangeEnd} {s : State} (hf : s.tracker.fault = false)
    (hle : start.toNat ≤ stop.toNat) (hend : stop.toNat ≤ 2 ^ 32) :
    ∃ t, exec (.hasStore start stop) s = .next t ∧ t.tracker = s.tracker ∧
      Done s t (bitData (hasStoreReservation { start := start, stop := stop } s.tracker)) 0 none false :=
  command_completes hf (if_pos ((rangeOk_iff _ _).mpr ⟨hle, hend⟩)) rfl

/-- Settles O40: the answer is the bit of `hasStoreReservation`, which is set exactly on an overlap. -/
theorem hasStoreCompletes : Obligations.HasStoreCompletes := by
  intro start stop s hf hle hend
  obtain ⟨t, hexec, htracker, hdone⟩ := exec_hasStore_completes hf hle hend
  have hiff := hasStoreReservation_iff s.tracker start stop
  refine ⟨t, _, hexec, htracker, hdone, fun hyes => ?_, fun hno => ?_⟩
  · rw [hiff.mpr hyes]
    rfl
  · rw [Bool.eq_false_iff.mpr (mt hiff.mp hno)]
    rfl

/-- R87, R152: the charge that a completed load shows is its extra stall. -/
theorem loadExtra_chargedOf {start : Addr} {stop : RangeEnd} {reg : RegIx} {n : Count} {s t : State}
    (hf : s.tracker.fault = false) (hexec : exec (.doLoad start stop reg n) s = .next t)
    (hf' : t.tracker.fault = false) : LoadExtra s.tracker start stop (chargedOf t) := by
  obtain ⟨heff, d, ht⟩ := exec_next hf hexec hf'
  obtain ⟨extra, hextra, htotal⟩ := effect_totalCycles heff
  have hcharged : chargedOf t = extra := by
    rw [ht]
    exact chargedOf_complete d _ _ htotal ((loadExtra_le hextra).trans_lt (by norm_num))
  exact hcharged ▸ hextra

/-- Settles O42: the charge is the extra stall of the load, in each of its three cases. -/
theorem loadPenaltyLaw : Obligations.LoadPenaltyLaw := by
  intro start stop reg n s t hf hexec hf'
  rcases loadExtra_chargedOf hf hexec hf' with ⟨hno, hzero⟩ | ⟨hyes, hlt, hseven⟩ | ⟨hyes, hge, hfive⟩
  · exact ⟨fun hyes => absurd hyes hno, fun _ => hzero⟩
  · exact ⟨fun _ => by rw [if_pos hlt, hseven], fun hno => absurd hyes hno⟩
  · exact ⟨fun _ => by rw [if_neg (Nat.not_lt.mpr hge), hfive], fun hno => absurd hyes hno⟩

end Sys2Proof.Machine

/-! Jumps, calls and the return-address stack (44_branch.md rules R169, R170, R172, R173, R175): DO_JUMP, DO_CALL,
RAS_PUSH and RAS_POP. -/

namespace Sys2Proof.Machine

open Sys2Proof.Safety

/-! Jumps. -/

/-- R8: the element of the BTB that a pc selects, as arithmetic (D15). -/
theorem btbIndex_val (pc : Addr) : (btbIndex pc).val = pc.toNat / 4 % 40 :=
  congrArg (· % 40) (Nat.shiftRight_eq_div_pow pc.toNat 2)

/-- R167: a write to the BTB, at the element as arithmetic. -/
theorem setBtb_eq (t : Tracker) (pc a : Addr) :
    setBtb t pc a = { t with btb := t.btb.set (pc.toNat / 4 % 40) a (Nat.mod_lt _ (by decide)) } := by
  simp only [setBtb, btbIndex_val]

/-- R169: with room a jump answers; it waits for its charge, and the BTB holds the target. -/
theorem doJump_completes {origin target : Addr} {t : Tracker}
    (hroom : t.totalCycles + jumpCharge t origin target < 2 ^ 64) :
    ∃ m, Waited (jumpCharge t origin target) t m ∧ doJump origin target t = .ok (setBtb m origin target) := by
  obtain ⟨t', h⟩ := doJump_ok_of hroom
  obtain ⟨m, hm, rfl⟩ := doJump_ok h
  exact ⟨m, hm, h⟩

/-- Settles O46: the wait and the one write to the BTB are the jump's, and the write leaves the counter alone. -/
theorem doJumpCompletes : Obligations.DoJumpCompletes := by
  intro origin target fall s hf hroom
  obtain ⟨m, hm, hjump⟩ := doJump_completes hroom
  obtain ⟨t, hexec, ht, hdone⟩ := quiet_completes hf hjump (waited_totalCycles hm :)
  rw [setBtb_eq] at ht
  exact ⟨t, m, hexec, hm, ht, hdone⟩

/-! The return-address stack. -/

/-- R172: a push writes the stack only, and drops the oldest of two entries. -/
theorem rasPush_eq (a : Addr) (t : Tracker) :
    rasPush a t = { t with ras := (if t.ras.length = 2 then t.ras.drop 1 else t.ras) ++ [a] } := by
  rw [rasPush, List.drop_one, rasCap_eq]

/-- R172, R39: on a stack within its bound two pushes leave nothing of what was there. -/
theorem rasPush_rasPush_ras {t : Tracker} (a b : Addr) (h : t.ras.length ≤ 2) :
    (rasPush b (rasPush a t)).ras = [a, b] := by
  rw [rasPush_eq, rasPush_eq]
  dsimp only
  match t.ras, h with
  | [], _ => rfl
  | [_], _ => rfl
  | [_, _], _ => rfl

/-- R175: the third push discards the first. -/
theorem rasPush_rasPush_rasPush_ras {t : Tracker} (a b c : Addr) (h : t.ras.length ≤ 2) :
    (rasPush c (rasPush b (rasPush a t))).ras = [b, c] := by
  rw [rasPush_eq, rasPush_rasPush_ras a b h]
  rfl

/-- R173: nothing can be popped off an empty stack. -/
theorem rasPop_of_ras_nil {t : Tracker} (h : t.ras = []) : rasPop t = .error .rasPopEmpty := by
  rw [rasPop, h]
  rfl

/-- R172: RAS_PUSH always completes, with the push. -/
theorem exec_rasPush_completes (a : Addr) {s : State} (hf : s.tracker.fault = false) :
    ∃ t, exec (.rasPush a) s = .next t ∧ t.tracker = rasPush a s.tracker ∧ Done s t 0 0 none false :=
  quiet_completes hf rfl (rasPush_totalCycles a s.tracker)

/-- R173: RAS_POP of a stack with a newest entry answers that entry and leaves the older ones. -/
theorem exec_rasPop_completes {a : Addr} {older : List Addr} {s : State} (hf : s.tracker.fault = false)
    (hras : s.tracker.ras = older ++ [a]) :
    ∃ t, exec .rasPop s = .next t ∧ t.tracker = { s.tracker with ras := older } ∧
      Done s t (a.setWidth 64) 0 none false :=
  command_completes hf (congrArg (Except.map fun p => (p.2, addrData p.1)) (rasPop_append hras)) rfl

/-- R173: RAS_POP of an empty stack faults. -/
theorem exec_rasPop_faults {s : State} (hf : s.tracker.fault = false) (hras : s.tracker.ras = []) :
    ∃ t, exec .rasPop s = .next t ∧ Faulted s t 7 false :=
  command_faults hf (congrArg (Except.map fun p : Addr × Tracker => (p.2, addrData p.1)) (rasPop_of_ras_nil hras))

/-- Settles O50: the command is the push. -/
theorem rasPushCompletes : Obligations.RasPushCompletes := by
  intro a s hf
  rw [← rasPush_eq]
  exact exec_rasPush_completes a hf

/-- Settles O51: the pop finds the newest entry, or no entry. -/
theorem rasPopCompletes : Obligations.RasPopCompletes :=
  ⟨fun _ _ _ hf hras => exec_rasPop_completes hf hras, fun _ hf hras => exec_rasPop_faults hf hras⟩

/-- Settles O47: the jump's wait leaves the stack, so the push finds the stack the command found. -/
theorem doCallCompletes : Obligations.DoCallCompletes := by
  intro origin target fall s hf hroom
  obtain ⟨m, hm, hjump⟩ := doJump_completes hroom
  obtain ⟨-, -, hras, -⟩ := waited_frame hm
  have hcall : doCall origin target fall s.tracker = .ok (rasPush fall (setBtb m origin target)) :=
    congrArg (Except.map (rasPush fall)) hjump
  obtain ⟨t, hexec, ht, hdone⟩ := quiet_completes hf hcall (waited_totalCycles hm :)
  rw [rasPush_eq, setBtb_ras, hras, setBtb_eq] at ht
  exact ⟨t, m, hexec, hm, ht, hdone⟩

/-- R87: what a completed command answers. -/
theorem done_resp {s s' : State} {d : BitVec 64} {n : Nat} {q : Option Addr} {b : Bool} (h : Done s s' d n q b) :
    s'.ports.resp = some { status := .ok, cause := 0, data := d, charged := BitVec.ofNat 32 n } := by
  rw [h.2]

/-- Settles O52: the three pushes leave the second and the third address, and each pop answers the newest. -/
theorem rasCapacityTwo : Obligations.RasCapacityTwo := by
  intro a b c s hf hlen
  obtain ⟨s1, h1, ht1, _⟩ := exec_rasPush_completes a hf
  have hf1 : s1.tracker.fault = false := by rw [ht1, rasPush_fault, hf]
  obtain ⟨s2, h2, ht2, _⟩ := exec_rasPush_completes b hf1
  have hf2 : s2.tracker.fault = false := by rw [ht2, rasPush_fault, hf1]
  obtain ⟨s3, h3, ht3, _⟩ := exec_rasPush_completes c hf2
  have hf3 : s3.tracker.fault = false := by rw [ht3, rasPush_fault, hf2]
  have hras3 : s3.tracker.ras = [b] ++ [c] := by
    rw [ht3, ht2, ht1]
    exact rasPush_rasPush_rasPush_ras a b c hlen
  obtain ⟨s4, h4, ht4, hd4⟩ := exec_rasPop_completes hf3 hras3
  have hf4 : s4.tracker.fault = false := by rw [ht4]; exact hf3
  have hras4 : s4.tracker.ras = [] ++ [b] := by rw [ht4]; rfl
  obtain ⟨s5, h5, ht5, hd5⟩ := exec_rasPop_completes hf4 hras4
  have hras5 : s5.tracker.ras = [] := by rw [ht5]
  exact ⟨s1, s2, s3, s4, s5, _, _, h1, h2, h3, h4, done_resp hd4, rfl, rfl, h5, done_resp hd5, rfl, rfl, hras5⟩

end Sys2Proof.Machine

/-! The instruction cache (45_icache.md): what a FETCH answers, and that every other command leaves the buckets. -/

namespace Sys2Proof.Machine

open Sys2Proof.Safety

/-- R87: the low half of a FETCH response is the word. -/
theorem fetchData_word (hit : Bool) (word : Word) : (fetchData hit word).extractLsb' 0 32 = word := by
  rw [fetchData, BitVec.extractLsb'_setWidth_of_le (by decide), BitVec.extractLsb'_append_eq_right]

/-- R201: a FETCH that completes has asked the instruction memory for `pc` and answers with its word. -/
theorem exec_fetch_next {pc : Addr} {s s' : State} (hf : s.tracker.fault = false)
    (h : exec (.fetch pc) s = .next s') (hf' : s'.tracker.fault = false) :
    s'.ports.imemReq = some pc ∧ ∃ r, s'.ports.resp = some r ∧
      r.data = fetchData (icHit s.tracker pc) s.ports.imemData := by
  obtain ⟨t, d, hbody, rfl⟩ := command_next hf h hf'
  refine ⟨rfl, _, rfl, ?_⟩
  cases htiming : fetchTiming pc (drawFrom s.build.miss s.ports.draw) s.tracker with
  | error c => rw [htiming] at hbody; cases hbody
  | ok m => rw [htiming] at hbody; cases hbody; rfl

/-- R204: the effect of a command other than FETCH leaves the buckets. -/
theorem effect_ic {i : Instr} {s : State} {t : Tracker} (hi : ∀ pc, i ≠ .fetch pc) (h : Effect s t i) :
    t.ic = s.tracker.ic := by
  have hwaited {n : Nat} {t t' : Tracker} (h : Waited n t t') : t'.ic = t.ic := (waited_frame h).2.2.2.1
  cases i with
  | advance n => exact hwaited h.2
  | stall n => exact hwaited h.2
  | accessReg reg => exact hwaited h
  | addLat reg cycles => obtain ⟨_, _, rfl⟩ := h; rfl
  | reserveMult n => obtain ⟨_, m, hm, rfl⟩ := h; exact (hwaited hm :)
  | reserveDiv n => obtain ⟨_, m, hm, rfl⟩ := h; exact (hwaited hm :)
  | doMult reg a b => obtain ⟨m, hm, _, rfl⟩ := h; exact (hwaited hm :)
  | doDiv reg a b => obtain ⟨m, hm, _, rfl⟩ := h; exact (hwaited hm :)
  | doCsr reg => obtain ⟨_, rfl⟩ := h; rfl
  | reserveStore start stop n => obtain ⟨_, _, _, rfl⟩ := h; rfl
  | hasStore start stop => obtain ⟨_, _, rfl⟩ := h; rfl
  | doLoad start stop reg n => obtain ⟨_, _, _, m, _, _, hm, _, rfl⟩ := h; exact (hwaited hm :)
  | updateBp pc newPc taken =>
    obtain ⟨m, hm, rfl⟩ := h
    rw [setBht_ic, apply_ite Tracker.ic, setBtb_ic, ite_self]
    exact hwaited hm
  | doJump origin target fall => obtain ⟨m, hm, rfl⟩ := h; exact (hwaited hm :)
  | doCall origin target fall => obtain ⟨m, hm, rfl⟩ := h; exact (hwaited hm :)
  | doRet origin target fall =>
    rcases h with ⟨_, _, rfl⟩ | ⟨_, m, hm, rfl⟩
    · rfl
    · exact (hwaited hm :)
  | rasPush a => cases h; rfl
  | rasPop => obtain ⟨_, _, _, rfl⟩ := h; rfl
  | fetch pc => exact absurd rfl (hi pc)
  | rdCycles => cases h; rfl

/-- R68: no command but FETCH asks the instruction memory. -/
theorem asks_of_not_fetch {i : Instr} (hi : ∀ pc, i ≠ .fetch pc) : asks i = none := by
  cases i with
  | fetch pc => exact absurd rfl (hi pc)
  | _ => rfl

/-- Settles O57: a completed FETCH has asked for `pc` and answers with the word; any other command, however it
ends, leaves the buckets and asks nothing. -/
theorem fetchReturnsInstructionWord : Obligations.FetchReturnsInstructionWord := by
  refine ⟨fun pc s t hf hexec hf' => ?_, fun i s t hi hexec => ?_⟩
  · obtain ⟨hreq, r, hr, hdata⟩ := exec_fetch_next hf hexec hf'
    exact ⟨hreq, r, hr, by rw [hdata, fetchData_word]⟩
  · cases hf : s.tracker.fault with
    | true => cases (exec_frozen i hf).symm.trans hexec; exact ⟨rfl, rfl⟩
    | false =>
      rcases exec_outcome i hf with ⟨c, hfault, _⟩ | ⟨t', d, hdone, heff⟩
      · cases hfault.symm.trans hexec
        exact ⟨rfl, rfl⟩
      · cases hdone.symm.trans hexec
        exact ⟨effect_ic hi heff, asks_of_not_fetch hi⟩

end Sys2Proof.Machine

/-! CYCLE_OVERFLOW (10_state.md rule R33, 60_exceptions.md rule R222): a charge the counter cannot take. A completed
command leaves the counter below `2^64`, so a command without room raises a cause; where its rules allow others, the
stall is met before what would raise them (R223). -/

namespace Sys2Proof.Machine

open Sys2Proof.Safety

/-- R270: the state and the draw fix what a command charges. -/
theorem chargeOf_unique {i : Instr} {s : State} {d c c' : Nat} (h : ChargeOf s d i c) (h' : ChargeOf s d i c') :
    c = c' := by
  cases i with
  | doLoad start stop reg n => exact ((loadExtra_iff _ _ _ _).mp h).trans ((loadExtra_iff _ _ _ _).mp h').symm
  | _ => exact h.trans h'.symm

/-- R33: what a completed command charged had room. -/
theorem room_of_effect {i : Instr} {s : State} {t : Tracker} {c : Nat}
    (hc : ChargeOf s (drawFrom s.build.miss s.ports.draw) i c) (heff : Effect s t i) (ht : t.totalCycles < 2 ^ 64) :
    Room c s := by
  obtain ⟨c', hc', htotal⟩ := effect_totalCycles heff
  rw [Room, chargeOf_unique hc hc', ← htotal]
  exact ht

/-- R222: a command whose charge has no room cannot complete, so it raises CYCLE_OVERFLOW if that is the one cause
its rules allow. -/
theorem exec_no_room_of_only_overflow {i : Instr} {s : State} {c : Nat} (hi : Invariant s)
    (hf : s.tracker.fault = false) (hc : ChargeOf s (drawFrom s.build.miss s.ports.draw) i c) (hroom : ¬ Room c s)
    (honly : ∀ code, mayRaise i code → code = 9) : ∃ t, exec i s = .next t ∧ Faulted s t 9 (draws s i) := by
  rcases exec_outcome i hf with ⟨k, hexec, hraise⟩ | ⟨t, d, hexec, heff⟩
  · exact ⟨_, hexec, honly _ (hraise hi) ▸ takeFault_faulted s k _⟩
  · exact absurd (room_of_effect hc heff (exec_totalCycles_lt hi.totalCycles hexec)) hroom

/-- R133, R134: the wait for the unit comes before the entry of the result. -/
theorem useUnit_no_room {u : FuncUnit} {reg : RegIx} {n : Nat} {t : Tracker} (hn : n ≠ 0)
    (hb : busyFor (unitOf t u) ≠ 0) (h : 2 ^ 64 ≤ t.totalCycles + busyFor (unitOf t u)) :
    useUnit u reg n t = .error .cycleOverflow := by
  rw [useUnit, reserve_no_room hn hb h]
  rfl

/-- R152: the wait for the penalty comes before the entry of the destination. -/
theorem doLoad_no_room {start : Addr} {stop : RangeEnd} {reg : RegIx} {n : Nat} {t : Tracker} {extra : Nat}
    (hr : rangeWf start stop = true) (hn : n ≠ 0) (he : LoadExtra t start stop extra) (h0 : extra ≠ 0)
    (h : 2 ^ 64 ≤ t.totalCycles + extra) :
    doLoad { start := start, stop := stop } reg n t = .error .cycleOverflow := by
  obtain ⟨hle, hend⟩ := (rangeWf_iff start stop).mp hr
  rw [doLoad_eq hle hend hn he, if_neg h0, stall_no_room h0 h]
  rfl

/-- R221: a count that passes its check is not 0. -/
theorem countWf_toNat_ne_zero {n : Count} (h : countWf n = true) : n.toNat ≠ 0 :=
  count_toNat_ne_zero (bne_iff_ne.mp h)

/-- Settles O22: the counter has room for 0, so the command waits; its wait is refused before it checks anything
else, and a command that can raise CYCLE_OVERFLOW only has nothing else to raise. -/
theorem chargeWithoutRoomFaults : Obligations.ChargeWithoutRoomFaults := by
  intro i s c hi hf hwf hc hroom
  have hlim : 2 ^ 64 ≤ s.tracker.totalCycles + c := Nat.not_lt.mp hroom
  have hpos : c ≠ 0 := by
    rintro rfl
    exact hroom hi.totalCycles
  cases i with
  | advance n => cases hc; exact quiet_faults hf (stall_no_room hpos hlim)
  | stall n => cases hc; exact quiet_faults hf (stall_no_room hpos hlim)
  | reserveMult n =>
    cases hc
    exact quiet_faults hf (reserve_no_room (u := .mult) (countWf_toNat_ne_zero hwf) hpos hlim)
  | reserveDiv n =>
    cases hc
    exact quiet_faults hf (reserve_no_room (u := .div) (countWf_toNat_ne_zero hwf) hpos hlim)
  | doMult reg a b => cases hc; exact quiet_faults hf (useUnit_no_room (u := .mult) (by decide) hpos hlim)
  | doDiv reg a b =>
    cases hc
    have hover := useUnit_no_room (u := .div) (reg := reg) (drawFrom_div_ne_zero hi.build s.ports.draw) hpos hlim
    exact command_faults hf (congrArg (Except.map fun t => (t, (0 : BitVec 64))) hover)
  | doLoad start stop reg n =>
    obtain ⟨hrange, hcount⟩ := Bool.and_eq_true_iff.mp hwf
    exact quiet_faults hf (doLoad_no_room hrange (countWf_toNat_ne_zero hcount) hc hpos hlim)
  | accessReg | updateBp | doJump | doCall | doRet | fetch =>
    exact exec_no_room_of_only_overflow hi hf hc hroom fun _ h => h
  | addLat | doCsr | reserveStore | hasStore | rasPush | rasPop | rdCycles => exact absurd hc hpos

end Sys2Proof.Machine

/-! The command word (30_encoding.md): decoding undoes encoding, and which words decode. -/

namespace Sys2Proof

/-- The fields written for a command decode to it; a range end is put together from `bhi` and `B` (R83). -/
theorem decodeFields_encodeFields (i : Instr) : decodeFields (encodeFields i) = .ok i := by
  have hstop {f : CmdFields} {stop : RangeEnd} (hb : f.b = stop.extractLsb' 0 32)
      (hbhi : f.bhi = stop.extractLsb' 32 1) (g : RangeEnd → Instr) :
      Except.ok (ε := DecodeError) (g (rangeEnd f)) = .ok (g stop) := by
    rw [rangeEnd_split stop f hb hbhi]
  cases i with
  | reserveStore start stop n => exact hstop rfl rfl fun e => .reserveStore start e n
  | hasStore start stop => exact hstop rfl rfl fun e => .hasStore start e
  | doLoad start stop reg n => exact hstop rfl rfl fun e => .doLoad start e reg n
  | updateBp pc newPc taken => cases taken <;> rfl
  | _ => rfl

/-- Settles O2: a word keeps every field, and the fields of a command decode to it. -/
theorem decodeEncodeAgree : Obligations.DecodeEncodeAgree := by
  intro i
  rw [encode, decode_wordOf, decodeFields_encodeFields]

/-- The fields of a word whose reserved bits are 0 (R90). -/
def unreservedFields (op : BitVec 8) (reg : RegIx) (flag bhi : BitVec 1) (n a b c : BitVec 32) : CmdFields :=
  { op := op, reg := reg, reservedLo := 0, flag := flag, bhi := bhi, reservedHi := 0, n := n, a := a, b := b, c := c }

/-- `decode_wordOf` for a word that is written out. -/
theorem decode_unreserved (op : BitVec 8) (reg : RegIx) (flag bhi : BitVec 1) (n a b c : BitVec 32) :
    decode (c ++ (b ++ (a ++ (n ++ (0#14 ++ (bhi ++ (flag ++ (0#3 ++ (reg ++ op))))))))) =
      decodeFields (unreservedFields op reg flag bhi n a b c) :=
  decode_wordOf (unreservedFields op reg flag bhi n a b c)

/-- Settles O1: a word keeps every field, and each opcode reads off its own. -/
theorem opcodeMapAndIgnoredFields : Obligations.OpcodeMapAndIgnoredFields := by
  intro reg flag bhi n a b c
  simp only [decode_unreserved]
  exact ⟨rfl, rfl, rfl, rfl, rfl, rfl, rfl, rfl, rfl, rfl, rfl, rfl, rfl, rfl, rfl, rfl, rfl, rfl, rfl, rfl⟩

/-- R89 to R91: which fields are those of a command. -/
theorem decodeFields_ok_iff (f : CmdFields) : (∃ i, decodeFields f = .ok i) ↔
    f.reservedLo = 0 ∧ f.reservedHi = 0 ∧ 1 ≤ f.op.toNat ∧ f.op.toNat ≤ 0x14 := by
  rw [decodeFields]
  split
  case isTrue hres =>
    refine ⟨nofun, fun ⟨hlo, hhi, _⟩ => ?_⟩
    rcases hres with h | h
    · exact absurd hlo h
    · exact absurd hhi h
  case isFalse hres =>
    obtain ⟨hlo, hhi⟩ := not_or.mp hres
    have hlo := not_ne_iff.mp hlo
    have hhi := not_ne_iff.mp hhi
    split
    case h_21 =>
      refine ⟨nofun, fun ⟨_, _, h1, h2⟩ => ?_⟩
      simp only [imp_false] at *
      omega
    all_goals exact ⟨fun _ => ⟨hlo, hhi, by omega, by omega⟩, fun _ => ⟨_, rfl⟩⟩

/-- R90, R91: a word decodes exactly when it is legal. -/
theorem decode_ok_iff_legal (w : CmdWord) : (∃ i, decode w = .ok i) ↔ CmdWord.legal w = true :=
  (decodeFields_ok_iff (fieldsOf w)).trans decide_eq_true_iff.symm

/-- R90: the mask `0xFFFCE0FF` covers the opcode and the reserved bits of `W0`. -/
theorem getLsbD_mask : ∀ i < 32, (0xFFFCE0FF#32).getLsbD i = decide (i < 8 ∨ 13 ≤ i ∧ i < 16 ∨ 18 ≤ i) := by
  decide

theorem getLsbD_of_extractLsb'_eq_zero {v start len i : Nat} {x : BitVec v} (h : x.extractLsb' start len = 0)
    (h1 : start ≤ i) (h2 : i < start + len) : x.getLsbD i = false := by
  have hbit := congrArg (fun y => y.getLsbD (i - start)) h
  simpa [show i - start < len by omega, show start + (i - start) = i by omega] using hbit

/-- R90: with the reserved bits 0, the masked word is the opcode. -/
theorem and_mask_of_unreserved {x : BitVec 32} (hlo : x.extractLsb' 13 3 = 0) (hhi : x.extractLsb' 18 14 = 0) :
    x &&& 0xFFFCE0FF#32 = (x.extractLsb' 0 8).setWidth 32 := by
  apply BitVec.eq_of_getLsbD_eq
  intro i hi
  rw [BitVec.getLsbD_and, getLsbD_mask i hi, BitVec.getLsbD_setWidth, BitVec.getLsbD_extractLsb', Nat.zero_add]
  by_cases hop : i < 8
  · simp [hop, hi]
  by_cases hres : 13 ≤ i ∧ i < 16 ∨ 18 ≤ i
  · have hbit : x.getLsbD i = false := by
      rcases hres with ⟨h1, h2⟩ | h1
      · exact getLsbD_of_extractLsb'_eq_zero hlo h1 h2
      · exact getLsbD_of_extractLsb'_eq_zero hhi h1 hi
    simp [hbit]
  · simp [hop, hres]

/-- R91: the masked word is an opcode exactly when the reserved bits are 0 and the opcode is it. -/
theorem and_mask_eq_iff (x : BitVec 32) {op : Nat} (hop : op < 2 ^ 8) :
    x &&& 0xFFFCE0FF#32 = BitVec.ofNat 32 op ↔
      x.extractLsb' 13 3 = 0 ∧ x.extractLsb' 18 14 = 0 ∧ (x.extractLsb' 0 8).toNat = op := by
  constructor
  · intro h
    have hfield (start len : Nat) (hcover : (0xFFFCE0FF#32).extractLsb' start len = BitVec.allOnes len) :
        (x.extractLsb' start len).toNat = op >>> start % 2 ^ len := by
      rw [← BitVec.and_allOnes (x := x.extractLsb' start len), ← hcover, ← BitVec.extractLsb'_and, h,
        BitVec.extractLsb'_toNat, BitVec.toNat_ofNat, Nat.mod_eq_of_lt (show op < 2 ^ 32 by omega)]
    have hlo := hfield 13 3 (by decide)
    have hhi := hfield 18 14 (by decide)
    have hlow := hfield 0 8 (by decide)
    refine ⟨BitVec.eq_of_toNat_eq ?_, BitVec.eq_of_toNat_eq ?_, ?_⟩
    · rw [hlo, Nat.shiftRight_eq_div_pow, Nat.div_eq_of_lt (by omega)]; rfl
    · rw [hhi, Nat.shiftRight_eq_div_pow, Nat.div_eq_of_lt (by omega)]; rfl
    · rw [hlow, Nat.shiftRight_zero, Nat.mod_eq_of_lt hop]
  · rintro ⟨hlo, hhi, rfl⟩
    rw [and_mask_of_unreserved hlo hhi, BitVec.ofNat_toNat]

theorem legal_iff_masked (w : CmdWord) : CmdWord.legal w = true ↔
    ∃ op : Nat, 0x01 ≤ op ∧ op ≤ 0x14 ∧ w.extractLsb' 0 32 &&& 0xFFFCE0FF#32 = BitVec.ofNat 32 op := by
  have hfield (start len : Nat) (h : start + len ≤ 32) :
      (w.extractLsb' 0 32).extractLsb' start len = w.extractLsb' start len := by
    rw [BitVec.extractLsb'_extractLsb'_of_le h]
  have hmask {op : Nat} (hop : op < 2 ^ 8) := and_mask_eq_iff (w.extractLsb' 0 32) hop
  rw [hfield 13 3 (by decide), hfield 18 14 (by decide), hfield 0 8 (by decide)] at hmask
  rw [CmdWord.legal, decide_eq_true_iff]
  constructor
  · rintro ⟨hlo, hhi, h1, h2⟩
    exact ⟨_, h1, h2, (hmask (BitVec.isLt _)).mpr ⟨hlo, hhi, rfl⟩⟩
  · rintro ⟨op, h1, h2, h⟩
    obtain ⟨hlo, hhi, rfl⟩ := (hmask (by omega)).mp h
    exact ⟨hlo, hhi, h1, h2⟩

/-- A word decodes or is refused. -/
theorem decode_error_iff (w : CmdWord) : (∃ e, decode w = .error e) ↔ ¬ ∃ i, decode w = .ok i := by
  cases decode w with
  | ok i => exact ⟨nofun, fun h => absurd ⟨i, rfl⟩ h⟩
  | error e => exact ⟨fun _ => nofun, fun _ => ⟨e, rfl⟩⟩

/-- Settles O3: a word decodes exactly when it is legal, and legality is read off the fields or off the mask. -/
theorem illegalWordsAreRejected : Obligations.IllegalWordsAreRejected := by
  intro w
  refine ⟨?_, (decode_ok_iff_legal w).trans (legal_iff_masked w)⟩
  rw [decode_error_iff, decode_ok_iff_legal, CmdWord.legal, decide_eq_true_iff]
  simp only [not_and_or, ne_eq, Nat.not_le, Nat.lt_one_iff, Nat.lt_iff_add_one_le (m := 20)]
  tauto

/-- Settles O4, by running the decoder on the words. -/
theorem sampleWordsDecode : Obligations.SampleWordsDecode := by
  refine ⟨?_, ?_, ?_, ?_, ?_, ?_, ?_⟩ <;> decide

end Sys2Proof

/-! What a step keeps (00_scope.md rule R5; 60_exceptions.md rules R224 to R226; 70_reset_and_hazards.md): reset, the
frozen tracker, an illegal word, and the invariant of every run. -/

namespace Sys2Proof.Machine

open Sys2Proof.Safety

/-! The step at a reset and at an illegal word. -/

/-- R250: a reset is driven. -/
theorem step_of_pending_rst {s : State} {rest : List PortEvent} (hp : s.ports.pending = .rst :: rest) :
    step s = .next (takeReset (takeEvent s rest)) := by
  rw [step, hp]

/-- R91, R96: an illegal word runs no command. -/
theorem runWord_of_decode_error {w : CmdWord} {e : DecodeError} (hw : decode w = .error e) (s : State) :
    runWord w s = runCommand s none false (.error .illegalCmd) := by
  rw [runWord, hw, illegalCommand]

/-- Settles O6: the word runs no command but the fault. -/
theorem illegalWordRaisesIllegalCmd : Obligations.IllegalWordRaisesIllegalCmd := by
  intro s w draw imemData rest e hf hp hw
  rw [step_of_pending_command hp, runWord_of_decode_error hw]
  exact command_faults (s := acceptCommand s draw imemData rest) hf rfl

/-- Settles O7: the state that has accepted the word is frozen too. -/
theorem faultFreezesTracker : Obligations.FaultFreezesTracker := by
  intro s w draw imemData rest hf hp
  rw [step_of_pending_command hp, runWord_frozen (s := acceptCommand s draw imemData rest) w hf]
  rfl

/-- Settles O9: the reset takes its event and writes the reset values. -/
theorem resetEventRestoresTracker : Obligations.ResetEventRestoresTracker := by
  intro s rest hp
  exact ⟨_, step_of_pending_rst hp, takeReset_tracker _, takeReset_build _, rfl⟩

/-- Settles O10: an idle step and a frozen tracker keep `fault`, so the event was a reset. -/
theorem onlyResetClearsFault : Obligations.OnlyResetClearsFault := by
  intro s t hf hstep hf'
  rcases step_cases hstep with ⟨_, rfl⟩ | ⟨rest, hp, _⟩ | ⟨w, d, m, rest, _, hword⟩
  · exact absurd (hf.symm.trans hf') nofun
  · exact ⟨rest, hp⟩
  · cases (runWord_frozen (s := acceptCommand s d m rest) w hf).symm.trans hword
    exact absurd (hf.symm.trans hf') nofun

/-! The reset values (R251). -/

/-- Settles O11: every table is a copy of one entry, so a pc or an index finds that entry. -/
theorem resetValues : Obligations.ResetValues := by
  have hget {α : Type} {n k : Nat} (a : α) (h : k < n) : (Vector.replicate n a)[k] = a := Vector.getElem_replicate h
  exact ⟨fun _ => hget _ _, rfl, rfl, rfl, rfl, fun _ => hget _ _, fun _ => hget _ _, rfl, fun _ => hget _ _,
    rfl, rfl⟩

/-- The reset values meet the invariant on every legal build. -/
theorem invariant_reset {s : State} (hb : s.build.legal) : Invariant { s with tracker := Tracker.reset } where
  build := hb
  reglat i := (resetValues.1 i).trans_lt (by norm_num)
  mult := ⟨nofun, fun _ => rfl⟩
  div := ⟨nofun, fun _ => rfl⟩
  stores := nofun
  slots k _ := Nat.zero_le k
  totalCycles := by norm_num [Tracker.reset]
  ras := Nat.zero_le 2
  ic e he := by
    obtain ⟨_, rfl⟩ := Vector.mem_replicate.mp (Vector.mem_toList_iff.mp he)
    exact ⟨rfl, rfl, fun _ => rfl⟩
  cause := ⟨fun _ => rfl, nofun⟩

/-- Settles O12: the build of this hardware is legal. -/
theorem resetSatisfiesInvariant : Obligations.ResetSatisfiesInvariant :=
  invariant_reset (s := State.reset) build_legal

/-- Settles O13: nothing but the output ports changes in an idle step, reset is a state of a run, and every word
keeps the invariant. -/
theorem stepKeepsInvariant : Obligations.StepKeepsInvariant := by
  intro s t hi hstep
  rcases step_cases hstep with ⟨_, rfl⟩ | ⟨rest, _, rfl⟩ | ⟨w, d, m, rest, _, hword⟩
  · exact { hi with }
  · exact { invariant_reset (s := s) hi.build with }
  · exact runWord_invariant (s := acceptCommand s d m rest) { hi with } hword

end Sys2Proof.Machine

/-! What a command can do beside its own work (60_exceptions.md rules R222, R224; 30_encoding.md rules R84, R85). -/

namespace Sys2Proof.Machine

open Sys2Proof.Safety

/-- Settles O15: frozen, faulted or complete, a command shows a response. -/
theorem everyCommandAnswers : Obligations.EveryCommandAnswers := by
  intro i s
  rcases exec_cases i s with ⟨_, h⟩ | ⟨_, c, b, h⟩ | ⟨_, t, d, q, b, h⟩
  · exact ⟨_, _, h, answerFaulted_resp s⟩
  · exact ⟨_, _, h, takeFault_resp s c b⟩
  · exact ⟨_, _, h, complete_resp s t d q b⟩

/-- Settles O16: a fresh fault is the one `takeFault` writes. -/
theorem faultsArePrecise : Obligations.FaultsArePrecise := by
  intro i s t hf hexec hf'
  obtain ⟨c, rfl, _⟩ := exec_fault hf hexec hf'
  exact takeFault_faulted s c _

/-- Settles O17: the cause of a fresh fault is one the command may raise. -/
theorem causesOfEachCommand : Obligations.CausesOfEachCommand := by
  intro i s t hi hf hexec hf'
  obtain ⟨c, rfl, hraise⟩ := exec_fault hf hexec hf'
  exact hraise hi

/-- Settles O18: frozen, faulted or complete, a command writes the tracker and the output ports only. -/
theorem commandsLeaveInputsAlone : Obligations.CommandsLeaveInputsAlone := by
  intro i s t hexec
  rcases exec_cases i s with ⟨_, h⟩ | ⟨_, c, b, h⟩ | ⟨_, t', d, q, b, h⟩
  · cases h.symm.trans hexec; exact ⟨rfl, rfl, rfl, rfl⟩
  · cases h.symm.trans hexec; exact ⟨rfl, rfl, rfl, rfl⟩
  · cases h.symm.trans hexec; exact ⟨rfl, rfl, rfl, rfl⟩

/-! The checks of the operands (R221, R223, R30). -/

/-- R64: a load in range with a latency of 0 raises BAD_COUNT. -/
theorem doLoad_zero {start : Addr} {stop : RangeEnd} (reg : RegIx) (t : Tracker) (hle : start.toNat ≤ stop.toNat)
    (hend : stop.toNat ≤ 2 ^ 32) : doLoad { start := start, stop := stop } reg 0 t = .error .badCount := by
  rw [doLoad, if_pos ((rangeOk_iff _ _).mpr ⟨hle, hend⟩), if_pos rfl]

/-- Settles O21: the count is the first thing each of the commands looks at; a load has looked at its range. -/
theorem zeroCountFaults : Obligations.ZeroCountFaults := by
  intro s reg start stop hf hle hend
  simp only [List.forall_mem_cons]
  exact ⟨quiet_faults hf rfl, quiet_faults hf rfl, quiet_faults hf rfl, quiet_faults hf rfl, quiet_faults hf rfl,
    quiet_faults hf (doLoad_zero reg _ hle hend), nofun⟩

/-- R64: a range that ends before it starts or past the last address is none. -/
theorem not_rangeOk {start : Addr} {stop : RangeEnd} (h : stop.toNat < start.toNat ∨ 2 ^ 32 < stop.toNat) :
    ¬ rangeOk { start := start, stop := stop } = true := by
  rw [rangeOk_iff]
  omega

/-- Settles O38: the range is the first thing each of the commands looks at. -/
theorem badRangeFaults : Obligations.BadRangeFaults := by
  intro start stop reg n s hf hbad
  have hrange := not_rangeOk hbad
  simp only [List.forall_mem_cons]
  exact ⟨quiet_faults hf (if_neg hrange), command_faults hf (if_neg hrange), quiet_faults hf (if_neg hrange),
    nofun⟩

/-- Settles O39: the range is legal, and no slot is free. -/
theorem finiteStoreSetFull : Obligations.FiniteStoreSetFull := by
  intro start stop n s k hf hle hend hk hfull
  have hset : storeSetFull s.build.storeSlots s.tracker = true := by
    rw [hk]
    exact decide_eq_true hfull
  have hbody : reserveStore s.build.storeSlots { start := start, stop := stop } n.toNat s.tracker =
      .error .storeSetFull := by
    rw [reserveStore, if_pos ((rangeOk_iff _ _).mpr ⟨hle, hend⟩), if_pos hset]
  exact quiet_faults hf hbody

/-- Settles O27: the command reads the counter. -/
theorem readCyclesCompletes : Obligations.ReadCyclesCompletes := by
  intro s hf
  exact command_completes hf rfl rfl

end Sys2Proof.Machine

/-! What a command leaves beside its wait (40_time.md rule R110; 42_units.md rule R136; 44_branch.md rule R166): a
unit that it does not reserve ages by the wait, and no command but UPDATE_BP writes the BHT. -/

namespace Sys2Proof.Machine

open Sys2Proof.Safety

/-- The command `i` waited `n` cycles in all; the units it does not reserve are only aged, and the BHT is left to
UPDATE_BP. -/
structure OnlyAged (i : Instr) (s : State) (t : Tracker) (n : Nat) : Prop where
  totalCycles : t.totalCycles = s.tracker.totalCycles + n
  unit : s.build.legal → ∀ u, UnitOk (unitOf s.tracker u) → (∀ k, ¬ reserves s u i k) →
    unitOf t u = agedUnit n (unitOf s.tracker u)
  bht : (∀ pc newPc taken, i ≠ .updateBp pc newPc taken) → t.bht = s.tracker.bht

/-- The writes that follow the wait decide. -/
theorem onlyAged_of_waited {i : Instr} {s : State} {m t : Tracker} {n : Nat} (hm : Waited n s.tracker m)
    (htotal : t.totalCycles = m.totalCycles)
    (hunit : s.build.legal → ∀ u, (∀ k, ¬ reserves s u i k) → unitOf t u = unitOf m u)
    (hbht : (∀ pc newPc taken, i ≠ .updateBp pc newPc taken) → t.bht = m.bht) : OnlyAged i s t n where
  totalCycles := htotal.trans (waited_totalCycles hm)
  unit hb u hu hfree := (hunit hb u hfree).trans (waited_unit hm u hu)
  bht hi := (hbht hi).trans (waited_frame hm).1

/-- Writes elsewhere leave units and BHT. -/
theorem onlyAged_of_frame {i : Instr} {s : State} {m t : Tracker} {n : Nat} (hm : Waited n s.tracker m)
    (htotal : t.totalCycles = m.totalCycles) (hmult : t.mult = m.mult) (hdiv : t.div = m.div) (hbht : t.bht = m.bht) :
    OnlyAged i s t n :=
  onlyAged_of_waited hm htotal (fun _ u _ => by cases u; exacts [hmult, hdiv]) fun _ => hbht

/-- R8: a legal divide window is not empty. -/
theorem div_lo_le_hi {b : Config.Build} (hb : b.legal) : b.div.lo ≤ b.div.hi := by
  obtain ⟨⟨_, hle, _⟩, _⟩ := hb
  exact hle

/-- Every command waits, writes the unit it reserves, and nothing else of what ages. -/
theorem effect_onlyAged {i : Instr} {s : State} {t : Tracker} (h : Effect s t i) : ∃ n, OnlyAged i s t n := by
  have h0 : Waited 0 s.tracker s.tracker := waited_zero.mpr rfl
  cases i with
  | advance n => exact ⟨_, onlyAged_of_frame h.2 rfl rfl rfl rfl⟩
  | stall n => exact ⟨_, onlyAged_of_frame h.2 rfl rfl rfl rfl⟩
  | accessReg reg => exact ⟨_, onlyAged_of_frame h rfl rfl rfl rfl⟩
  | addLat reg n => obtain ⟨_, _, rfl⟩ := h; exact ⟨_, onlyAged_of_frame h0 rfl rfl rfl rfl⟩
  | reserveMult n =>
    obtain ⟨_, m, hm, rfl⟩ := h
    refine ⟨_, onlyAged_of_waited hm rfl (fun _ u hfree => ?_) fun _ => rfl⟩
    cases u
    · exact absurd rfl (hfree _)
    · rfl
  | reserveDiv n =>
    obtain ⟨_, m, hm, rfl⟩ := h
    refine ⟨_, onlyAged_of_waited hm rfl (fun _ u hfree => ?_) fun _ => rfl⟩
    cases u
    · rfl
    · exact absurd rfl (hfree _)
  | doMult reg a b =>
    obtain ⟨m, hm, _, rfl⟩ := h
    refine ⟨_, onlyAged_of_waited hm rfl (fun _ u hfree => ?_) fun _ => rfl⟩
    cases u
    · exact absurd rfl (hfree _)
    · rfl
  | doDiv reg a b =>
    obtain ⟨m, hm, _, rfl⟩ := h
    refine ⟨_, onlyAged_of_waited hm rfl (fun hb u hfree => ?_) fun _ => rfl⟩
    cases u
    · rfl
    · exact absurd ⟨le_rfl, div_lo_le_hi hb⟩ (hfree _)
  | doCsr reg => obtain ⟨_, rfl⟩ := h; exact ⟨_, onlyAged_of_frame h0 rfl rfl rfl rfl⟩
  | reserveStore start stop n => obtain ⟨_, _, _, rfl⟩ := h; exact ⟨_, onlyAged_of_frame h0 rfl rfl rfl rfl⟩
  | hasStore start stop => obtain ⟨_, _, rfl⟩ := h; exact ⟨_, onlyAged_of_frame h0 rfl rfl rfl rfl⟩
  | doLoad start stop reg n =>
    obtain ⟨_, _, _, m, _, _, hm, _, rfl⟩ := h
    exact ⟨_, onlyAged_of_frame hm rfl rfl rfl rfl⟩
  | updateBp pc newPc taken =>
    obtain ⟨m, hm, rfl⟩ := h
    refine ⟨_, onlyAged_of_waited hm ?_ (fun _ u _ => ?_) fun hi => absurd rfl (hi pc newPc taken)⟩
    · split <;> rfl
    · split <;> rfl
  | doJump origin target fall => obtain ⟨m, hm, rfl⟩ := h; exact ⟨_, onlyAged_of_frame hm rfl rfl rfl rfl⟩
  | doCall origin target fall => obtain ⟨m, hm, rfl⟩ := h; exact ⟨_, onlyAged_of_frame hm rfl rfl rfl rfl⟩
  | doRet origin target fall =>
    rcases h with ⟨_, _, rfl⟩ | ⟨_, m, hm, rfl⟩
    · exact ⟨_, onlyAged_of_frame h0 rfl rfl rfl rfl⟩
    · obtain ⟨htotal, hunit, hbht⟩ : OnlyAged (.doRet origin target fall)
          { s with tracker := { s.tracker with ras := s.tracker.ras.dropLast } } (setBtb m origin target) _ :=
        onlyAged_of_frame hm rfl rfl rfl rfl
      exact ⟨_, htotal, hunit, hbht⟩
  | rasPush a => cases h; exact ⟨_, onlyAged_of_frame h0 rfl rfl rfl rfl⟩
  | rasPop => obtain ⟨_, _, _, rfl⟩ := h; exact ⟨_, onlyAged_of_frame h0 rfl rfl rfl rfl⟩
  | fetch pc =>
    rcases h with ⟨_, rfl⟩ | ⟨_, hd, m, hm, rfl⟩
    · exact ⟨_, onlyAged_of_frame h0 rfl rfl rfl rfl⟩
    · exact ⟨_, onlyAged_of_frame ((waited_pos hd).mpr hm) rfl rfl rfl rfl⟩
  | rdCycles => cases h; exact ⟨_, onlyAged_of_frame h0 rfl rfl rfl rfl⟩

/-! Branch history (R166). -/

/-- A taken outcome moves the other counter, and one that is not taken leaves 0 at 0. -/
theorem trained_counter_zero {e : BhtEntry} (taken : Bool) (h : e.counters[0] = 0) :
    (trained e taken).counters[0] = 0 := by
  cases taken <;> simp [trained, h]

theorem bhtAt_mem (t : Tracker) (pc : Addr) : bhtAt t pc ∈ t.bht.toList :=
  Vector.mem_toList_iff.mpr (Vector.getElem_mem _)

/-- Training one entry keeps the counters of history 0 at 0. -/
theorem notTakenCountersZero_train {s s' : State} (pc : Addr) (taken : Bool) (hz : NotTakenCountersZero s)
    (h : s'.tracker.bht = (setBht s.tracker pc (trained (bhtAt s.tracker pc) taken)).bht) :
    NotTakenCountersZero s' := by
  intro e he
  rw [h] at he
  rcases Vector.mem_or_eq_of_mem_set (hi := (bhtIndex pc).isLt) (Vector.mem_toList_iff.mp he) with hmem | rfl
  · exact hz e (Vector.mem_toList_iff.mpr hmem)
  · exact trained_counter_zero taken (hz _ (bhtAt_mem s.tracker pc))

theorem notTakenCountersZero_of_bht {s s' : State} (hz : NotTakenCountersZero s)
    (h : s'.tracker.bht = s.tracker.bht) : NotTakenCountersZero s' := by
  unfold NotTakenCountersZero
  rw [h]
  exact hz

/-- A completed UPDATE_BP trains the entry of its branch, any other command writes no entry. -/
theorem exec_notTakenCountersZero {i : Instr} {s s' : State} (hz : NotTakenCountersZero s)
    (h : exec i s = .next s') : NotTakenCountersZero s' := by
  cases hf : s.tracker.fault with
  | true => cases (exec_frozen i hf).symm.trans h; exact hz
  | false =>
    rcases exec_outcome i hf with ⟨c, h1, _⟩ | ⟨t, d, h1, heff⟩
    · cases h1.symm.trans h; exact hz
    · cases h1.symm.trans h
      by_cases hi : ∀ pc newPc taken, i ≠ .updateBp pc newPc taken
      · obtain ⟨n, hn⟩ := effect_onlyAged heff
        exact notTakenCountersZero_of_bht hz (hn.bht hi)
      · push Not at hi
        obtain ⟨pc, newPc, taken, rfl⟩ := hi
        obtain ⟨m, hm, rfl⟩ := heff
        refine notTakenCountersZero_train pc taken hz ?_
        obtain ⟨hbht, -⟩ := waited_frame hm
        rw [complete_tracker, setBht, apply_ite Tracker.bht, setBtb_bht, ite_self, hbht]
        rfl

theorem runWord_notTakenCountersZero {w : CmdWord} {s s' : State} (hz : NotTakenCountersZero s)
    (h : runWord w s = .next s') : NotTakenCountersZero s' := by
  rcases runWord_next h with ⟨i, hexec⟩ | rfl | rfl
  · exact exec_notTakenCountersZero hz hexec
  · exact hz
  · exact hz

/-- The counters of a reset entry are 0. -/
theorem notTakenCountersZero_reset {s : State} (h : s.tracker = Tracker.reset) : NotTakenCountersZero s := by
  intro e he
  rw [h] at he
  obtain ⟨_, rfl⟩ := Vector.mem_replicate.mp (Vector.mem_toList_iff.mp he)
  rfl

/-- Settles O14: reset sets every counter to 0, and every word keeps those of history 0 there. -/
theorem notTakenCountersStayZero : Obligations.NotTakenCountersStayZero := by
  refine ⟨notTakenCountersZero_reset rfl, fun s t hz hstep => ?_⟩
  rcases step_cases hstep with ⟨_, rfl⟩ | ⟨rest, _, rfl⟩ | ⟨w, d, m, rest, _, hword⟩
  · exact hz
  · exact notTakenCountersZero_reset rfl
  · exact runWord_notTakenCountersZero (s := acceptCommand s d m rest) hz hword

/-! Busy units (R136). -/

/-- A command that reserves the unit and completes charged what was left, and holds the unit. -/
theorem effect_reserves {i : Instr} {s : State} {t : Tracker} {u : FuncUnit} {k : Nat} (hb : s.build.legal)
    (h : Effect s t i) (hk : reserves s u i k) :
    ∃ k, reserves s u i k ∧ unitOf t u = { acquired := true, remaining := k } ∧
      t.totalCycles = s.tracker.totalCycles + busyFor (unitOf s.tracker u) := by
  match u, i, hk with
  | .mult, .reserveMult n, _ => obtain ⟨_, m, hm, rfl⟩ := h; exact ⟨_, rfl, rfl, (waited_totalCycles hm :)⟩
  | .mult, .doMult reg a b, _ => obtain ⟨m, hm, _, rfl⟩ := h; exact ⟨_, rfl, rfl, (waited_totalCycles hm :)⟩
  | .div, .reserveDiv n, _ => obtain ⟨_, m, hm, rfl⟩ := h; exact ⟨_, rfl, rfl, (waited_totalCycles hm :)⟩
  | .div, .doDiv reg a b, _ =>
    obtain ⟨m, hm, _, rfl⟩ := h
    exact ⟨_, drawFrom_mem _ (div_lo_le_hi hb) _, rfl, (waited_totalCycles hm :)⟩

/-- R110: a busy unit is released when its time has come, and else has that much less left. -/
theorem agedUnit_deadline {u : OpReservation} (ha : u.acquired = true) (n : Nat) :
    ((agedUnit n u).acquired = true ∧ n + (agedUnit n u).remaining = u.remaining) ∨
      ((agedUnit n u).acquired = false ∧ u.remaining ≤ n) := by
  rw [agedUnit, if_pos ha]
  split
  · next h => exact .inr ⟨rfl, h⟩
  · next h => exact .inl ⟨rfl, by dsimp only; omega⟩

/-- Settles O36: a command that reserves the unit waits for it first, and any other command only ages it. -/
theorem unitBusyUntilDeadline : Obligations.UnitBusyUntilDeadline := by
  intro u i s t hi hf ha hexec hf'
  obtain ⟨heff, _⟩ := exec_next hf hexec hf'
  have hu : UnitOk (unitOf s.tracker u) := by
    cases u
    · exact hi.mult
    · exact hi.div
  by_cases hres : ∃ k, reserves s u i k
  · obtain ⟨_, hk⟩ := hres
    obtain ⟨k, hk, hunit, htotal⟩ := effect_reserves hi.build heff hk
    rw [busyFor, if_pos ha] at htotal
    exact .inl ⟨k, hk, hunit, htotal⟩
  · have hfree := not_exists.mp hres
    obtain ⟨n, haged⟩ := effect_onlyAged heff
    refine .inr ⟨hfree, ?_⟩
    rw [haged.unit hi.build u hu hfree, haged.totalCycles]
    rcases agedUnit_deadline ha n with ⟨hacq, hleft⟩ | ⟨hrel, hdue⟩
    · exact .inl ⟨hacq, by omega⟩
    · exact .inr ⟨hrel, by omega⟩

end Sys2Proof.Machine

/-! Two advances (40_time.md rule R116), and the commands that enter a latency after a wait: DO_DIV (42_units.md rule
R134) and DO_LOAD (43_store_load.md rule R152). -/

namespace Sys2Proof.Machine

open Sys2Proof.Safety

/-! Two advances. -/

theorem agedUnit_agedUnit (a b : Nat) (u : OpReservation) : agedUnit b (agedUnit a u) = agedUnit (a + b) u := by
  rcases u with ⟨_ | _, r⟩
  · rfl
  · by_cases h1 : r ≤ a
    · simp [agedUnit, h1, Nat.le_add_right_of_le h1]
    · simp [agedUnit, h1, Nat.sub_sub, Nat.add_comm b a]

theorem ageStores_ageStores (a b : Nat) (l : List StoreReservation) :
    ageStores b (ageStores a l) = ageStores (a + b) l := by
  have hlive (r : StoreReservation) :
      (decide (b < r.remaining - a) && decide (a < r.remaining)) = decide (a + b < r.remaining) := by
    rw [← Bool.decide_and]
    exact decide_eq_decide.mpr (by omega)
  simp only [ageStores, List.filter_map, List.filter_filter, List.map_map, Function.comp_def, hlive, Nat.sub_sub]

/-- R116: what `a` and then `b` cycles make of the tracker is what `a + b` cycles make of it. -/
theorem aged_trans {a b : Nat} {t u v : Tracker} (h : Aged a t u) (h' : Aged b u v) : Aged (a + b) t v where
  reglat i := by rw [h'.reglat, h.reglat, Nat.sub_sub]
  mult := by rw [h'.mult, h.mult, agedUnit_agedUnit]
  div := by rw [h'.div, h.div, agedUnit_agedUnit]
  stores := by
    rw [h'.stores, h.stores]
    exact ageStores_ageStores a b t.stores
  totalCycles := by rw [h'.totalCycles, h.totalCycles, Nat.add_assoc]
  bht := h'.bht.trans h.bht
  btb := h'.btb.trans h.btb
  ras := h'.ras.trans h.ras
  ic := h'.ic.trans h.ic
  fault := h'.fault.trans h.fault
  cause := h'.cause.trans h.cause

/-- R225: a command that completes found no fault. -/
theorem fault_eq_false_of_exec {i : Instr} {s t : State} (h : exec i s = .next t) (hf' : t.tracker.fault = false) :
    s.tracker.fault = false := by
  cases hf : s.tracker.fault with
  | false => rfl
  | true => cases (exec_frozen i hf).symm.trans h; exact hf.symm.trans hf'

/-- R110: what a completed ADVANCE left, and that it had room. -/
theorem exec_advance_next {n : Count} {s t : State} (hf : s.tracker.fault = false)
    (h : exec (.advance n) s = .next t) (hf' : t.tracker.fault = false) :
    t.tracker.totalCycles < 2 ^ 64 ∧ Aged n.toNat s.tracker t.tracker := by
  obtain ⟨m, hadv, rfl⟩ := quiet_next hf h hf'
  obtain ⟨_, hroom, haged⟩ := (advance_ok_iff _ _ _).mp hadv
  exact ⟨haged.totalCycles.trans_lt hroom, haged⟩

/-- Settles O26: the second advance had room, so one advance of the sum has it too, and what is aged twice is aged by
the sum. -/
theorem advancesCompose : Obligations.AdvancesCompose := by
  intro a b s t u ha _ hlt hf hexec hexec' hfu
  have hft := fault_eq_false_of_exec hexec' hfu
  obtain ⟨_, haged⟩ := exec_advance_next hf hexec hft
  obtain ⟨hroom, haged'⟩ := exec_advance_next hft hexec' hfu
  have hsum : (a + b).toNat = a.toNat + b.toNat := by
    rw [BitVec.toNat_add]
    exact Nat.mod_eq_of_lt hlt
  have hboth := aged_trans haged haged'
  rw [← hsum] at hboth
  have hne : (a + b).toNat ≠ 0 := by
    have := count_toNat_ne_zero ha
    omega
  have hadv : advance (a + b).toNat s.tracker = .ok u.tracker :=
    (advance_ok_iff _ _ _).mpr ⟨hne, hboth.totalCycles ▸ hroom, hboth⟩
  obtain ⟨v, hv, htracker, _⟩ := quiet_completes hf hadv hboth.totalCycles
  exact ⟨v, hv, htracker⟩

/-! DO_DIV (R134). -/

/-- With the unit's wait in room and the destination free by then, DO_DIV holds the unit for the draw. -/
theorem exec_doDiv_completes {reg : RegIx} (a b : Word) {s : State} {d : Nat} (hf : s.tracker.fault = false)
    (hu : UnitOk s.tracker.div) (hd : drawFrom s.build.div s.ports.draw = d) (hd0 : d ≠ 0)
    (hroom : Room (busyFor s.tracker.div) s) (hl : latency s.tracker reg ≤ busyFor s.tracker.div) :
    ∃ t m, exec (.doDiv reg a b) s = .next t ∧ Waited (busyFor s.tracker.div) s.tracker m ∧
      t.tracker = setLatency (setUnit m .div { acquired := true, remaining := d }) reg (d + 1) ∧
      Done s t 0 (busyFor s.tracker.div) none true := by
  obtain ⟨m, hm⟩ := waited_exists hroom
  have huse := useUnit_ok_of (u := .div) hd0 hroom hu hm hl
  rw [← hd] at huse
  obtain ⟨t, hexec, ht, hdone⟩ := command_completes (q := none) (b := true) hf
    (congrArg (Except.map fun t => (t, (0 : BitVec 64))) huse) (waited_totalCycles hm :)
  rw [hd] at ht
  exact ⟨t, m, hexec, hm, ht, hdone⟩

/-- Settles O33: the draw is the value that lies in the window, and no value of a legal window is 0. -/
theorem doDivCompletes : Obligations.DoDivCompletes := by
  intro reg a b s hf hb hu hroom hl
  obtain ⟨hlo, hhi⟩ := drawFrom_mem s.build.div (div_lo_le_hi hb) s.ports.draw
  have hd0 := drawFrom_div_ne_zero hb s.ports.draw
  obtain ⟨t, m, hexec, hm, ht, hdone⟩ := exec_doDiv_completes a b hf hu rfl hd0 hroom hl
  exact ⟨t, m, _, hlo, hhi, drawFrom_of_mem, hexec, hm, ht, hdone⟩

/-! DO_LOAD (R152). -/

/-- Settles O41: the destination's entry is gone after the stall, so the new entry is made. -/
theorem doLoadCompletes : Obligations.DoLoadCompletes := by
  intro start stop reg n s extra hf hle hend hn he hroom hl
  obtain ⟨m, hm⟩ := waited_exists hroom
  have hgone : latency m reg = 0 := by
    rw [waited_latency hm]
    omega
  have hn := count_toNat_ne_zero hn
  have hload : doLoad { start := start, stop := stop } reg n.toNat s.tracker = .ok (setLatency m reg n.toNat) := by
    rw [doLoad_eq hle hend hn he, wait_of_room hroom hm]
    exact addResultLatency_free hn hgone
  obtain ⟨t, hexec, ht, hdone⟩ := quiet_completes hf hload (waited_totalCycles hm :)
  exact ⟨t, m, hexec, hm, ht, hdone⟩

end Sys2Proof.Machine

/-! Conditional branches and returns (44_branch.md rules R165 to R168, R171, R174, R176): UPDATE_BP and DO_RET. -/

namespace Sys2Proof.Machine

open Sys2Proof.Safety

/-! Table indexes (R8). -/

/-- R8: the element of the BHT that a pc selects, as arithmetic (D14). -/
theorem bhtIndex_val (pc : Addr) : (bhtIndex pc).val = pc.toNat / 4 % 128 :=
  congrArg (· % 128) (Nat.shiftRight_eq_div_pow pc.toNat 2)

/-- R8: the bucket that a pc selects, as arithmetic (D19). -/
theorem icTag_val (pc : Addr) : (icTag pc).val = pc.toNat / 32 % 512 :=
  congrArg (· % 512) (Nat.shiftRight_eq_div_pow pc.toNat 5)

/-- R200: a block is 16384 bytes, so its address has the low 14 bits of the pc cleared. -/
theorem icBlock_eq_shift (pc : Addr) : icBlock pc = pc >>> 14 <<< 14 := by
  rw [icBlock_eq, BitVec.shiftLeft_ushiftRight]
  rfl

theorem icBlock_toNat (pc : Addr) : (icBlock pc).toNat = pc.toNat / 16384 * 16384 := by
  rw [icBlock_eq_shift]
  have hlt := addr_lt pc
  rw [BitVec.toNat_shiftLeft, BitVec.toNat_ushiftRight, Nat.shiftRight_eq_div_pow, Nat.shiftLeft_eq]
  exact Nat.mod_eq_of_lt (show pc.toNat / 2 ^ 14 * 2 ^ 14 < 2 ^ 32 by omega)

/-- Settles O43: each index is the shift and the remainder of its table. -/
theorem tableIndexes : Obligations.TableIndexes := by
  intro t pc
  refine ⟨?_, ?_, ?_, icBlock_toNat pc⟩
  · simp only [bhtAt, bhtIndex_val]
  · simp only [btbAt, btbIndex_val]
  · simp only [icAt, icTag_val]

/-! Conditional branches. -/

/-- R168: what a resolved branch charges. -/
def branchCharge (t : Tracker) (pc newPc : Addr) (taken : Bool) : Nat :=
  if branchMissed t pc newPc taken then 3 else 0

/-- R168: an UPDATE_BP whose procedure answers shows its prediction, waits for its charge and writes the two
tables. -/
theorem exec_updateBp_completes {pc newPc : Addr} {taken : Bool} {s : State} (hf : s.tracker.fault = false)
    (hok : ∃ t, updateBranchPrediction pc newPc taken s.tracker = .ok t) :
    ∃ t m, exec (.updateBp pc newPc taken) s = .next t ∧
      Waited (branchCharge s.tracker pc newPc taken) s.tracker m ∧
      t.tracker = setBht (if taken && branchMissed s.tracker pc newPc taken then setBtb m pc newPc else m) pc
        (trained (bhtAt s.tracker pc) taken) ∧
      Done s t (bitData (predictedTaken s.tracker pc)) (branchCharge s.tracker pc newPc taken) none false := by
  obtain ⟨t', hupdate⟩ := hok
  obtain ⟨m, hm, rfl⟩ := updateBranchPrediction_ok hupdate
  have htotal := waited_totalCycles hm
  obtain ⟨t, hexec, ht, hdone⟩ := command_completes (q := none) (b := false) hf
    (congrArg (Except.map fun t => (t, bitData (bhtPredict s.tracker pc))) hupdate)
    (show _ = s.tracker.totalCycles + branchCharge s.tracker pc newPc taken by
      rw [setBht_totalCycles, apply_ite Tracker.totalCycles, setBtb_totalCycles, ite_self]; exact htotal)
  exact ⟨t, m, hexec, hm, ht, hdone⟩

/-- R35: a write to the BHT, at the element as arithmetic. -/
theorem setBht_eq (t : Tracker) (pc : Addr) (e : BhtEntry) :
    setBht t pc e = { t with bht := t.bht.set (pc.toNat / 4 % 128) e (Nat.mod_lt _ (by decide)) } := by
  simp only [setBht, bhtIndex_val]

theorem bitData_eq (b : Bool) : bitData b = if b then 1 else 0 := by
  cases b <;> rfl

/-- Settles O44: the wait and the writes are those of the resolved branch, and the prediction is the one before. -/
theorem updateBranchCompletes : Obligations.UpdateBranchCompletes := by
  intro pc newPc taken s hf hroom
  obtain ⟨t, m, hexec, hm, ht, hdone⟩ := exec_updateBp_completes hf (updateBranchPrediction_ok_of hroom)
  rw [setBht_eq, setBtb_eq] at ht
  rw [bitData_eq] at hdone
  refine ⟨t, m, hexec, hm, ?_, hdone⟩
  rw [ht]
  split <;> rfl

/-- What a taken branch leaves in its own entries: the trained counter, and its target. -/
theorem exec_updateBp_taken {pc target : Addr} {s : State} (hf : s.tracker.fault = false)
    (hok : ∃ t, updateBranchPrediction pc target true s.tracker = .ok t) :
    ∃ t, exec (.updateBp pc target true) s = .next t ∧ t.tracker.fault = false ∧
      t.tracker.totalCycles = s.tracker.totalCycles + branchCharge s.tracker pc target true ∧
      bhtAt t.tracker pc = trained (bhtAt s.tracker pc) true ∧ btbAt t.tracker pc = target ∧
      Done s t (bitData (predictedTaken s.tracker pc)) (branchCharge s.tracker pc target true) none false := by
  obtain ⟨t, m, hexec, hm, ht, hdone⟩ := exec_updateBp_completes hf hok
  have htotal := waited_totalCycles hm
  obtain ⟨-, hbtb, -, -, hfm, -⟩ := waited_frame hm
  refine ⟨t, hexec, ?_, ?_, ?_, ?_, hdone⟩
  · rw [ht, setBht_fault]; split <;> exact hfm.trans hf
  · rw [ht, setBht_totalCycles]; split <;> exact htotal
  · rw [ht, bhtAt_setBht]
  · rw [ht, btbAt_congr (setBht_btb _ _ _), Bool.true_and]
    split
    · exact btbAt_setBtb m pc target
    · next hmiss =>
      obtain ⟨_, htarget⟩ : predictedTaken s.tracker pc = true ∧ btbAt s.tracker pc = target := by
        simpa [branchMissed] using hmiss
      rw [btbAt_congr hbtb, htarget]

theorem chargedOf_done {s t : State} {d : BitVec 64} {n : Nat} {q : Option Addr} {b : Bool} (h : Done s t d n q b)
    (hn : n < 2 ^ 32) : chargedOf t = n := by
  rw [chargedOf, done_resp h]
  exact Nat.mod_eq_of_lt hn

theorem predictedTaken_of_bhtAt {t : Tracker} {pc : Addr} {e : BhtEntry} (h : bhtAt t pc = e) :
    predictedTaken t pc = decide (2 ≤ (e.counters[e.history.toNat]'e.history.isLt).toNat) := by
  subst h
  rfl

/-- R168: a taken branch that was not predicted costs 3 cycles. -/
theorem branchCharge_of_unpredicted {t : Tracker} {pc : Addr} (target : Addr) (h : predictedTaken t pc = false) :
    branchCharge t pc target true = 3 := by
  simp [branchCharge, branchMissed, h]

/-- R174: a branch that has converged is predicted taken, to its target. -/
theorem converged_predicted {pc target : Addr} {t : Tracker} (h : Converged pc target t) :
    predictedTaken t pc = true ∧ branchCharge t pc target true = 0 := by
  obtain ⟨hhistory, hcounter, hbtb⟩ := h
  have hpred : predictedTaken t pc = true := by
    simp only [predictedTaken, hhistory]
    exact decide_eq_true hcounter
  exact ⟨hpred, by simp [branchCharge, branchMissed, hpred, hbtb]⟩

/-- R166: a taken outcome moves the counter of history 1 up to 3. -/
theorem trained_counter_one (e : BhtEntry) :
    (trained e true).counters[1].toNat = min (e.counters[1].toNat + 1) 3 := by
  simp only [trained, if_true, Vector.getElem_set_self, BitVec.toNat_ofNat]
  exact Nat.mod_eq_of_lt (show _ < 4 by omega)

/-- R168: with room for its charge UPDATE_BP answers. -/
theorem updateBranchPrediction_ok_of_charge {pc newPc : Addr} {taken : Bool} {t : Tracker} {n : Nat}
    (h : branchCharge t pc newPc taken = n) (hroom : t.totalCycles + n < 2 ^ 64) :
    ∃ t', updateBranchPrediction pc newPc taken t = .ok t' := by
  subst h
  exact updateBranchPrediction_ok_of hroom

/-- R168: an outcome that was predicted is not waited for, so it needs no room. -/
theorem updateBranchPrediction_ok_of_charge_zero {pc newPc : Addr} {taken : Bool} {t : Tracker}
    (h : branchCharge t pc newPc taken = 0) : ∃ t', updateBranchPrediction pc newPc taken t = .ok t' := by
  have hhit : ¬ branchMissed t pc newPc taken = true := fun hmiss => by simp [branchCharge, hmiss] at h
  rw [updateBranchPrediction, resolveBranch_eq, if_neg hhit]
  exact ⟨_, rfl⟩

/-- R174: another taken outcome leaves the branch converged. -/
theorem converged_trained {pc target : Addr} {t t' : Tracker} (h : Converged pc target t)
    (hbht : bhtAt t' pc = trained (bhtAt t pc) true) (hbtb : btbAt t' pc = target) : Converged pc target t' := by
  obtain ⟨_, hcounter, _⟩ := h
  refine ⟨by rw [hbht]; rfl, ?_, hbtb⟩
  rw [hbht, trained_counter_one]
  omega

/-- Settles O45: two taken outcomes bring the counter of history 1 from 0 to 2, and no further one brings it back. -/
theorem branchConverges : Obligations.BranchConverges := by
  constructor
  · intro pc target s hf hroom hentry
    have hroom : s.tracker.totalCycles + 6 < 2 ^ 64 := hroom
    have hcharge := branchCharge_of_unpredicted target ((predictedTaken_of_bhtAt hentry).trans rfl)
    obtain ⟨t, hexec, hft, htotal, hbht, _, hdone⟩ :=
      exec_updateBp_taken hf (updateBranchPrediction_ok_of_charge hcharge (by omega))
    rw [hcharge] at hdone htotal
    rw [hentry] at hbht
    have hcharge' := branchCharge_of_unpredicted target ((predictedTaken_of_bhtAt hbht).trans rfl)
    obtain ⟨u, hexec', hfu, _, hbht', hbtb, hdone'⟩ :=
      exec_updateBp_taken hft (updateBranchPrediction_ok_of_charge hcharge' (by omega))
    rw [hcharge'] at hdone'
    rw [hbht] at hbht'
    exact ⟨t, u, hexec, chargedOf_done hdone (by decide), hexec', chargedOf_done hdone' (by decide), hfu,
      by rw [hbht']; rfl, by rw [hbht']; decide, hbtb⟩
  · intro pc target s hf hconv
    obtain ⟨hpred, hcharge⟩ := converged_predicted hconv
    obtain ⟨t, hexec, hft, htotal, hbht, hbtb, hdone⟩ :=
      exec_updateBp_taken hf (updateBranchPrediction_ok_of_charge_zero hcharge)
    rw [hpred, hcharge] at hdone
    rw [hcharge] at htotal
    exact ⟨t, _, hexec, done_resp hdone, rfl, rfl, htotal, hft, converged_trained hconv hbht hbtb⟩

/-! Returns. -/

/-- R110 note (e): time does not look at the stack. -/
theorem advance_ras (n : Nat) (t : Tracker) (l : List Addr) :
    advance n { t with ras := l } = (advance n t).map fun m => { m with ras := l } := by
  simp only [advance, ageIfAcquired_eq]
  split
  · rfl
  · split <;> rfl

/-- R169: nor does a jump. -/
theorem doJump_ras (origin target : Addr) (t : Tracker) (l : List Addr) :
    doJump origin target { t with ras := l } = (doJump origin target t).map fun m => { m with ras := l } := by
  simp only [doJump, show btbAt { t with ras := l } origin = btbAt t origin from rfl]
  split
  · rfl
  · exact advance_ras mispredict (setBtb t origin target) l

/-- R171: without its target on top of the stack a return is a jump, and the pop. -/
theorem doRet_fallback {origin target : Addr} {t : Tracker} (h : t.ras.getLast? ≠ some target) :
    doRet origin target t = (doJump origin target t).map fun m => { m with ras := t.ras.dropLast } := by
  rw [doRet_miss h, doJump_ras]

/-- Settles O48: with the target on top the pop is all, and else the jump and the pop. -/
theorem doRetCompletes : Obligations.DoRetCompletes := by
  constructor
  · intro origin target fall older s hf hras
    exact quiet_completes hf (doRet_hit hras) rfl
  · intro origin target fall s hf hmiss hroom
    obtain ⟨m, hm, hjump⟩ := doJump_completes hroom
    have hret : doRet origin target s.tracker =
        .ok { setBtb m origin target with ras := s.tracker.ras.dropLast } := by
      rw [doRet_fallback hmiss, hjump]
      rfl
    obtain ⟨t, hexec, ht, hdone⟩ := quiet_completes hf hret (waited_totalCycles hm :)
    rw [setBtb_eq] at ht
    exact ⟨t, m, hexec, hm, ht, hdone⟩

/-- A procedure that ends in a write elsewhere is answered as without it. -/
theorem runQuiet_map_next {s t u : State} {body : Except Cause Tracker} {f : Tracker → Tracker}
    (htotal : ∀ m, (f m).totalCycles = m.totalCycles) (hbtb : ∀ m, (f m).btb = m.btb)
    (h : runQuiet s (body.map f) = .next t) (h' : runQuiet s body = .next u) :
    t.ports = u.ports ∧ t.tracker.totalCycles = u.tracker.totalCycles ∧ t.tracker.btb = u.tracker.btb := by
  cases hf : s.tracker.fault with
  | true =>
    cases (runCommand_frozen hf _ _ _).symm.trans h
    cases (runCommand_frozen hf _ _ _).symm.trans h'
    exact ⟨rfl, rfl, rfl⟩
  | false =>
    cases body with
    | error c =>
      cases (runQuiet_error hf c).symm.trans h
      cases (runQuiet_error hf c).symm.trans h'
      exact ⟨rfl, rfl, rfl⟩
    | ok m =>
      cases (runQuiet_ok hf (f m)).symm.trans h
      cases (runQuiet_ok hf m).symm.trans h'
      exact ⟨by simp only [complete, respond, htotal], htotal m, hbtb m⟩

/-- Settles O49: the return is the jump, and the pop is not answered. -/
theorem returnFallsBackToJump : Obligations.ReturnFallsBackToJump := by
  intro origin target fall s t u hmiss hret hjump
  have hret : runQuiet s (doRet origin target s.tracker) = .next t := hret
  rw [doRet_fallback hmiss] at hret
  exact runQuiet_map_next (f := fun m => { m with ras := s.tracker.ras.dropLast }) (fun _ => rfl) (fun _ => rfl)
    hret hjump

end Sys2Proof.Machine

/-! The instruction cache (45_icache.md rules R201 to R203): what a FETCH makes of the bucket it selects. -/

namespace Sys2Proof.Machine

open Sys2Proof.Safety

/-! A bucket. -/

/-- R201: the bucket after an access to the block `b`. -/
def accessBucket (e : CacheBucket) (b : Addr) : CacheBucket :=
  if e.firstBlock = b ∨ e.secondBlock = b then { e with lruFlag := e.firstBlock == b } else fillBucket e b

/-- R43: the way that was used last, which the flag does not name. -/
def CacheBucket.recent (e : CacheBucket) : Addr := if e.lruFlag then e.firstBlock else e.secondBlock

/-- R43: the next victim, which the flag names. -/
def CacheBucket.victim (e : CacheBucket) : Addr := if e.lruFlag then e.secondBlock else e.firstBlock

/-- R202: the block of an access is the one used last. -/
theorem accessBucket_recent (e : CacheBucket) (b : Addr) : (accessBucket e b).recent = b := by
  unfold accessBucket
  split
  · next hhit =>
    by_cases hfirst : e.firstBlock = b
    · simp [CacheBucket.recent, hfirst]
    · simp [CacheBucket.recent, hfirst, hhit.resolve_left hfirst]
  · cases hflag : e.lruFlag <;> simp [CacheBucket.recent, fillBucket, hflag]

/-- R203: an access to another block than the last makes the last the next victim. -/
theorem accessBucket_victim {e : CacheBucket} {b : Addr} (h : b ≠ e.recent) :
    (accessBucket e b).victim = e.recent := by
  unfold accessBucket
  split
  · next hhit =>
    cases hflag : e.lruFlag
    · have hsecond : e.secondBlock ≠ b := fun hc => h (by simp [CacheBucket.recent, hflag, hc])
      simp [CacheBucket.recent, CacheBucket.victim, hflag, hhit.resolve_right hsecond]
    · have hfirst : e.firstBlock ≠ b := fun hc => h (by simp [CacheBucket.recent, hflag, hc])
      simp [CacheBucket.recent, CacheBucket.victim, hflag, hfirst]
  · cases hflag : e.lruFlag <;> simp [CacheBucket.recent, CacheBucket.victim, fillBucket, hflag]

/-- R201: a block is resident when it is in one of the two ways. -/
theorem resident_iff (t : Tracker) (pc : Addr) :
    resident t pc = true ↔ (icAt t pc).recent = icBlock pc ∨ (icAt t pc).victim = icBlock pc := by
  rw [resident, Bool.or_eq_true, beq_iff_eq, beq_iff_eq, CacheBucket.recent, CacheBucket.victim]
  cases (icAt t pc).lruFlag
  · exact or_comm
  · rfl

/-! The bucket of a fetch. -/

/-- A FETCH that completes has accessed the block of its pc. -/
theorem exec_fetch_icAt {pc : Addr} {s t : State} (hf : s.tracker.fault = false) (h : exec (.fetch pc) s = .next t)
    (hf' : t.tracker.fault = false) : icAt t.tracker pc = accessBucket (icAt s.tracker pc) (icBlock pc) := by
  obtain ⟨heff, _⟩ := exec_next hf h hf'
  rcases heff with ⟨hhit, ht⟩ | ⟨hmiss, _, m, _, ht⟩
  · rw [ht, icAt_setIc, accessBucket, if_pos (by simpa [resident] using hhit)]
  · obtain ⟨h1, h2⟩ := not_resident_iff.mp hmiss
    rw [ht, icAt_setIc, accessBucket, if_neg (not_or.mpr ⟨h1, h2⟩)]

/-- R42: pcs with one index have one bucket. -/
theorem icAt_of_icTag_eq {pc pc' : Addr} (h : icTag pc' = icTag pc) (t : Tracker) : icAt t pc' = icAt t pc := by
  simp only [icAt, h]

/-- Settles O55: the block of the fetch is in the way used last, which is the one the flag does not name. -/
theorem fetchMarksLeastRecentlyUsed : Obligations.FetchMarksLeastRecentlyUsed := by
  intro pc s t hf hexec hf'
  have hrecent : (icAt t.tracker pc).recent = icBlock pc := by
    rw [exec_fetch_icAt hf hexec hf', accessBucket_recent]
  exact ⟨fun hflag => by rw [← hrecent, CacheBucket.recent, if_pos hflag],
    fun hflag => by rw [← hrecent, CacheBucket.recent, hflag, if_neg Bool.false_ne_true]⟩

/-! A fetch that hits, and one that misses. -/

theorem setIc_eq (t : Tracker) (pc : Addr) (e : CacheBucket) :
    setIc t pc e = { t with ic := t.ic.set (pc.toNat / 32 % 512) e (Nat.mod_lt _ (by decide)) } := by
  simp only [setIc, icTag_val]

/-- R87: bit 32 is the hit, and the word stands below it. -/
theorem fetchData_eq (hit : Bool) (word : Word) :
    fetchData hit word = BitVec.ofNat 64 (hit.toNat * 2 ^ 32 + word.toNat) := by
  apply BitVec.eq_of_toNat_eq
  rw [fetchData, BitVec.toNat_setWidth, BitVec.toNat_append, ← Nat.shiftLeft_add_eq_or_of_lt word.isLt,
    Nat.shiftLeft_eq, BitVec.toNat_ofBool, BitVec.toNat_ofNat]

/-- Settles O53: a hit marks its way, waits for nothing and draws nothing. -/
theorem fetchHitCompletes : Obligations.FetchHitCompletes := by
  intro pc s hf hhit
  have hbody := fetchTiming_hit hhit (drawFrom s.build.miss s.ports.draw)
  obtain ⟨t, hexec, ht, hdone⟩ := command_completes (q := some pc) (b := !icHit s.tracker pc) hf
    (congrArg (Except.map fun t => (t, fetchData (icHit s.tracker pc) s.ports.imemData)) hbody)
    (n := 0) (setIc_totalCycles ..)
  rw [icHit_eq, hhit, fetchData_eq] at hdone
  rw [setIc_eq] at ht
  exact ⟨t, hexec, ht, by simpa using hdone⟩

/-- R201: a miss whose penalty has room waits for it, and fills the victim. -/
theorem exec_fetch_miss_completes {pc : Addr} {s : State} {p : Nat} (hf : s.tracker.fault = false)
    (hmiss : resident s.tracker pc = false) (hp : drawFrom s.build.miss s.ports.draw = p) (hp0 : p ≠ 0)
    (hroom : Room p s) :
    ∃ t m, exec (.fetch pc) s = .next t ∧ Aged p s.tracker m ∧
      t.tracker = setIc m pc (fillBucket (icAt s.tracker pc) (icBlock pc)) ∧
      Done s t (fetchData false s.ports.imemData) p (some pc) true := by
  obtain ⟨m, hstall, hm⟩ := advance_completes hp0 hroom
  have hbody : fetchTiming pc (drawFrom s.build.miss s.ports.draw) s.tracker =
      .ok (setIc m pc (fillBucket (icAt s.tracker pc) (icBlock pc))) := by
    rw [fetchTiming, icHit_eq, hmiss, if_neg Bool.false_ne_true, stall_eq, hp, hstall]
    rfl
  obtain ⟨t, hexec, ht, hdone⟩ := command_completes (q := some pc) (b := !icHit s.tracker pc) hf
    (congrArg (Except.map fun t => (t, fetchData (icHit s.tracker pc) s.ports.imemData)) hbody) hm.totalCycles
  rw [icHit_eq, hmiss] at hdone
  exact ⟨t, m, hexec, hm, ht, hdone⟩

/-- Settles O54: the penalty is the draw, which lies in the window and is not 0. -/
theorem fetchMissCompletes : Obligations.FetchMissCompletes := by
  intro pc s hf hb hmiss hroom
  obtain ⟨_, h1, h2, _⟩ := hb
  obtain ⟨hlo, hhi⟩ := drawFrom_mem s.build.miss h2 s.ports.draw
  obtain ⟨t, m, hexec, hm, ht, hdone⟩ := exec_fetch_miss_completes hf hmiss rfl (by omega) hroom
  rw [setIc_eq] at ht
  rw [fetchData_eq] at hdone
  exact ⟨t, m, _, rfl, hlo, hhi, drawFrom_of_mem, hexec, hm, ht, by simpa using hdone⟩

/-- R203: a fetch that misses charges a value of the window. -/
theorem exec_fetch_miss_charged {pc : Addr} {s t : State} (hi : Invariant s) (hf : s.tracker.fault = false)
    (hmiss : resident s.tracker pc = false) (hexec : exec (.fetch pc) s = .next t) (hf' : t.tracker.fault = false) :
    s.build.miss.lo ≤ chargedOf t ∧ chargedOf t ≤ s.build.miss.hi := by
  obtain ⟨c, hc, hlo, hhi, _, hcharged⟩ := chargesMoveTheCounter _ s t hi hf hexec hf'
  have hc : c = if resident s.tracker pc = true then 0 else drawFrom s.build.miss s.ports.draw := hc
  rw [hmiss, if_neg Bool.false_ne_true] at hc
  rw [hcharged, hc]
  exact ⟨hlo, hhi⟩

/-- R203: the block just fetched is there for the next fetch of its bucket. -/
theorem resident_of_fetched {pc pc' : Addr} {s t : State} (hf : s.tracker.fault = false)
    (hexec : exec (.fetch pc) s = .next t) (hf' : t.tracker.fault = false) (htag : icTag pc' = icTag pc)
    (hblock : icBlock pc' = icBlock pc) : resident t.tracker pc' = true := by
  rw [resident_iff, icAt_of_icTag_eq htag, exec_fetch_icAt hf hexec hf', accessBucket_recent]
  exact .inl hblock.symm

/-- Settles O56: the two ways hold the blocks of the last two fetches, if these are two blocks. -/
theorem cacheLaw : Obligations.CacheLaw := by
  refine ⟨fun pc s t => exec_fetch_miss_charged, fun pc pc' s t hf hexec hf' htag hblock => ?_,
    fun p1 p2 p3 s t u v hf htag2 htag3 h21 h31 h32 hexec1 hexec2 hexec3 hfv => ?_⟩
  · obtain ⟨u, hu, hut, hdone⟩ := fetchHitCompletes pc' t hf' (resident_of_fetched hf hexec hf' htag hblock)
    exact ⟨u, hu, by rw [hut]; exact hf', chargedOf_done hdone (by decide)⟩
  · have hfu := fault_eq_false_of_exec hexec3 hfv
    have hft := fault_eq_false_of_exec hexec2 hfu
    have h1 := exec_fetch_icAt hf hexec1 hft
    have h2 := exec_fetch_icAt hft hexec2 hfu
    have h3 := exec_fetch_icAt hfu hexec3 hfv
    rw [icAt_of_icTag_eq htag2, icAt_of_icTag_eq htag2] at h2
    rw [icAt_of_icTag_eq htag3, icAt_of_icTag_eq htag3] at h3
    have hrecent : (icAt v.tracker p1).recent = icBlock p3 := by rw [h3, accessBucket_recent]
    have hvictim : (icAt v.tracker p1).victim = icBlock p2 := by
      have hlast : (icAt u.tracker p1).recent = icBlock p2 := by rw [h2, accessBucket_recent]
      rw [h3, accessBucket_victim (hlast ▸ h32), hlast]
    rw [← Bool.not_eq_true, resident_iff, resident_iff, resident_iff, icAt_of_icTag_eq htag2, icAt_of_icTag_eq htag3,
      hrecent, hvictim]
    exact ⟨not_or.mpr ⟨h31, h21⟩, .inr rfl, .inl rfl⟩

end Sys2Proof.Machine

/-! The random cycle amounts (00_scope.md rules R6, R8; 30_encoding.md rule R88). -/

namespace Sys2Proof.Machine

open Sys2Proof.Safety

/-- `s` with the draw `d` on its port. -/
def withDraw (s : State) (d : Nat) : State := { s with ports := { s.ports with draw := d } }

/-- Settles O34: a value of the window is drawn as it is. -/
theorem drawsCoverTheWindows : Obligations.DrawsCoverTheWindows := by
  refine ⟨fun reg a b s d hf hu hpos hroom hl h1 h2 => ?_, fun pc s d hf hpos hmiss hroom h1 h2 => ?_,
    fun w hle hmax => ⟨portDraw_mem w hle, fun d h1 h2 => portDraw_onto w d h1 h2 hmax⟩⟩
  · obtain ⟨t, m, hexec, _, ht, _⟩ := exec_doDiv_completes (s := withDraw s d) (d := d) (reg := reg) a b hf hu
      (drawFrom_of_mem h1 h2) (by omega) hroom hl
    exact ⟨t, hexec, by rw [ht]; rfl, by rw [ht, latency_setLatency, if_pos rfl]⟩
  · obtain ⟨t, m, hexec, hm, ht, _⟩ := exec_fetch_miss_completes (s := withDraw s d) (p := d) (pc := pc) hf hmiss
      (drawFrom_of_mem h1 h2) (by omega) hroom
    exact ⟨t, hexec, by rw [ht]; exact hm.totalCycles⟩

/-! The parameters (R8). -/

/-- Settles O58: the record holds the table's values, and the build's windows are legal. -/
theorem parameterValues : Obligations.ParameterValues := by
  obtain ⟨hdiv, hmiss⟩ := build_legal
  exact ⟨⟨rfl, rfl, rfl, rfl⟩, ⟨rfl, rfl, rfl⟩, ⟨rfl, rfl, rfl, rfl⟩, ⟨rfl, rfl, rfl, rfl, rfl, rfl, rfl⟩,
    ⟨rfl, rfl, rfl⟩, fun pc => ⟨congrArg (· % 128) (Nat.shiftRight_eq_div_pow pc 2),
      congrArg (· % 40) (Nat.shiftRight_eq_div_pow pc 2), congrArg (· % 512) (Nat.shiftRight_eq_div_pow pc 5)⟩,
    ⟨rfl, rfl, rfl⟩, hdiv, hmiss⟩

end Sys2Proof.Machine
